-- ==== Sys2Proof/Word.lean ====
section
/-! DEFINITION. The words FPEV-CORE exchanges on its ports and their plainest parts
(spec/00_scope.md R8, R9; spec/10_state.md R20). -/

namespace Sys2Proof

/-- A binary64 bit pattern: bit 63 is the sign, bits 62:52 the exponent field, bits 51:0 the
fraction field (R8, R9). -/
abbrev Bits64 := BitVec 64

/-- A sign bit, `true` for 1 (R10 gives `Sign` the values 0 and 1). -/
abbrev Sign := Bool

/-- The packed request word `REQ[129:0] = op, a, b` (R38). -/
abbrev RequestWord := BitVec 130

/-- The packed response word `RSP[111:0] = result, tag_count, tags` (R47). -/
abbrev ResponseWord := BitVec 112

end Sys2Proof
end

