-- ==== Sys2Proof/Syntax.lean ====
section
/-! DEFINITION. What a request says and what a response says: one constructor of `Instr` for each
row of spec/opcode_table.json (R39), the closed vocabulary of step tags (R44), and the response
(R26). -/

namespace Sys2Proof

/-- A request: the operator and its two operand patterns (R38, R39). Every value is legal (R43). -/
inductive Instr where
  /-- `ADD A, B`, `op = 00` (R70). -/
  | add (a b : Bits64)
  /-- `SUB A, B`, `op = 01` (R71). -/
  | sub (a b : Bits64)
  /-- `MUL A, B`, `op = 10` (R80). -/
  | mul (a b : Bits64)
  /-- `DIV A, B`, `op = 11` (R90). -/
  | div (a b : Bits64)
deriving DecidableEq, Repr, Inhabited

/-- A step tag (R44). The argument of a normalise tag is a shift count, so a natural number. -/
inductive Tag where
  /-- `align`: the alignment shift happened (R75). -/
  | align
  /-- `add`: the magnitudes were added (R76). -/
  | add
  /-- `sub(A>B)`: B's magnitude was subtracted from A's (R76). -/
  | subAB
  /-- `sub(B>A)`: A's magnitude was subtracted from B's (R76). -/
  | subBA
  /-- `normalize:left(n)` (R58). -/
  | normalizeLeft (n : Nat)
  /-- `normalize:right(n)` (R58). -/
  | normalizeRight (n : Nat)
  /-- `round:carry`: a rounding applied its increment (R59, R63). -/
  | roundCarry
  /-- `round:keep`: a rounding applied no increment (R59, R63). -/
  | roundKeep
deriving DecidableEq, Repr

/-- The content of a response: the result pattern and the ordered step list (R26). -/
structure Response where
  result : Bits64
  tags : List Tag
deriving DecidableEq, Repr

end Sys2Proof
end

