-- ==== Sys2Proof/Config.lean ====
section
/-! DEFINITION. What an implementation of FPEV-CORE fixes and the spec leaves open
(spec/00_scope.md R6; spec/93_implementation_defined.md I1, I5 to I8). The datapath and the clock
edge take these values as the argument `Params`; the machine runs at `Config.params`, made of
opaque constants, so that nothing can be proved of it that is not true of every legal value. -/

namespace Sys2Proof

/-- `ZERO_ORDER`: which zero operand the add/subtract shortcut tests first (R6, R73, I5). -/
inductive ZeroOrder where
  | aFirst
  | bFirst
deriving DecidableEq, Repr, Inhabited

/-- The open parameters of R6, each stored so that exactly the legal values can be written, and the
values of the response ports while nothing is presented (R23, I6). -/
structure Params where
  /-- Bits 51:0 of `NAN_MAG`, less one: those bits are nonzero (R55). The bound is `2^52 - 1`. -/
  nanFractionPred : Fin 4503599627370495
  /-- `ZERO_ORDER` (R73). -/
  zeroOrder : ZeroOrder
  /-- `DEPTH`, less one: it is at least 1 (R22). -/
  depthPred : Nat
  /-- `LATENCY`: the clock edges a request stands at the head of the queue before its response is
  presented. It may differ per request and from time to time (R24, R118). -/
  latency : Nat → Instr → Nat
  /-- `result` at a time at which `rsp_valid = 0` (R23, I6). -/
  idleResult : Nat → Bits64
  /-- `tag_count` at a time at which `rsp_valid = 0` (R23, I6). -/
  idleTagCount : Nat → BitVec 3
  /-- `tags` at a time at which `rsp_valid = 0` (R23, I6). -/
  idleTags : Nat → BitVec 45

/-- The spec's own defaults (R6), with one slot in flight, no latency and idle ports at zero where it
gives no default. Only tests use it. -/
def Params.default : Params where
  nanFractionPred := 2251799813685247
  zeroOrder := .aFirst
  depthPred := 0
  latency := fun _ _ => 0
  idleResult := fun _ => 0
  idleTagCount := fun _ => 0
  idleTags := fun _ => 0

namespace Config

/-- Free value: the implementation's NaN fraction, less one (I1). -/
opaque nanFractionPred : Fin 4503599627370495
/-- Free value: the implementation's `ZERO_ORDER` (I5). -/
opaque zeroOrder : ZeroOrder
/-- Free value: the implementation's `DEPTH`, less one (I8). -/
opaque depthPred : Nat
/-- Free value: the response latency, for a request and a count of edges (I7). -/
opaque latency : Nat → Instr → Nat
/-- Free value: `result` while no response is presented, for a count of edges (I6). -/
opaque idleResult : Nat → Bits64
/-- Free value: `tag_count` while no response is presented (I6). -/
opaque idleTagCount : Nat → BitVec 3
/-- Free value: `tags` while no response is presented (I6). -/
opaque idleTags : Nat → BitVec 45

/-- The parameters of the unit at hand (R6): fixed by the implementation, not state (R27, R115). -/
def params : Params where
  nanFractionPred := nanFractionPred
  zeroOrder := zeroOrder
  depthPred := depthPred
  latency := latency
  idleResult := idleResult
  idleTagCount := idleTagCount
  idleTags := idleTags

end Config

end Sys2Proof
end

