-- ==== Sys2Proof/Machine/Operands.lean ====
section
/-! DEFINITION. Operands: the three fields of a pattern, BitCodec.unpack, and the widening of MUL and
DIV (spec/30_encoding.md R41; spec/40_codec.md R50 to R52; spec/42_multiply.md R82). There is no
other operand form: no immediate, register or addressing mode (R42). -/

namespace Sys2Proof.Machine

/-- `p[63]` (R41). -/
def signField (p : Bits64) : Sign := p.getLsbD 63
/-- `p[62:52]`, biased by 1023 (R41). -/
def expField (p : Bits64) : Nat := (p.extractLsb' 52 11).toNat
/-- `p[51:0]` (R41). -/
def fracField (p : Bits64) : Nat := (p.extractLsb' 0 52).toNat
/-- `p[62:0]`, all of a pattern but its sign (R73). -/
def magnitudeField (p : Bits64) : BitVec 63 := p.extractLsb' 0 63

/-- The pattern `{s, p[62:0]}`. -/
def withSign (s : Sign) (magnitude : BitVec 63) : Bits64 := BitVec.ofBool s ++ magnitude

/-- An unpacked operand (R50). An infinity or a NaN has no exponent and no significand, so that no rule
can read one (R52). -/
inductive Unpacked where
  | nan (sign : Sign)
  | infinity (sign : Sign)
  /-- A zero, subnormal or normal value. -/
  | finite (sign : Sign) (exponent : Int) (significand : Nat) (isSubnormal : Bool)
deriving DecidableEq, Repr

/-- BitCodec.unpack (R50). -/
def unpack (p : Bits64) : Unpacked :=
  if expField p = 0x7FF then
    if fracField p = 0 then .infinity (signField p) else .nan (signField p)
  else if expField p = 0 then
    .finite (signField p) (-1022) (fracField p) true
  else
    .finite (signField p) ((expField p : Int) - 1023) (2 ^ 52 + fracField p) false

/-- The index of the highest set bit of a nonzero natural (R10). -/
def msb (m : Nat) : Nat := m.log2

/-- A significand and its exponent. -/
structure Scaled where
  significand : Nat
  exponent : Int
deriving DecidableEq, Repr

/-- `widen`: a subnormal significand is shifted until bit 52 is set, its exponent lowered by the same
amount; a normal one is unchanged (R82). -/
def widen (significand : Nat) (exponent : Int) : Scaled :=
  if significand < 2 ^ 52 then
    let t := 52 - msb significand
    ⟨significand <<< t, exponent - t⟩
  else ⟨significand, exponent⟩

end Sys2Proof.Machine
end

