-- ==== Sys2Proof/Machine/Flags.lean ====
section
/-! DEFINITION. FPEV-CORE has no architectural flag, condition code or IEEE-754 exception flag
(spec/10_state.md R16). What it computes and forgets within one operation stands here: the flags and
classes of an unpacked value (spec/40_codec.md R50, R51) and the guard, round and sticky bits with the
decision to round up (R59, R63). -/

namespace Sys2Proof.Machine

/-- The sign of an unpacked value; a NaN's sign is meaningful (R52). -/
def Unpacked.sign : Unpacked → Sign
  | .nan s => s
  | .infinity s => s
  | .finite s _ _ _ => s

/-- The record's flag `isNaN` (R50). -/
def Unpacked.isNaN : Unpacked → Bool
  | .nan _ => true
  | .infinity _ => false
  | .finite _ _ _ _ => false

/-- The record's flag `isInfinity` (R50). -/
def Unpacked.isInf : Unpacked → Bool
  | .nan _ => false
  | .infinity _ => true
  | .finite _ _ _ _ => false

/-- The record's flag `isSubnormal` (R50). -/
def Unpacked.isSubnormal : Unpacked → Bool
  | .nan _ => false
  | .infinity _ => false
  | .finite _ _ _ sub => sub

/-- Zero is a subnormal with a zero significand (R51). -/
def Unpacked.isZero : Unpacked → Bool
  | .nan _ => false
  | .infinity _ => false
  | .finite _ _ m sub => sub && m == 0

/-- None of NaN, infinity and zero holds (R51). -/
def Unpacked.isFiniteNonzero (u : Unpacked) : Bool := !u.isNaN && !u.isInf && !u.isZero

/-- The guard, round and sticky bits below a kept value (R59, R63). -/
structure Grs where
  guard : Bool
  round : Bool
  sticky : Bool
deriving DecidableEq, Repr

/-- Round to nearest, ties to even: increment when guard is set and round or sticky is set, or the kept
value is odd (R59, R63). -/
def roundsUp (main : Nat) (x : Grs) : Bool := x.guard && (x.round || x.sticky || main.testBit 0)

/-- The low three bits of an extended significand (R59). -/
def grsOf (m : Nat) : Grs := ⟨m.testBit 2, m.testBit 1, m.testBit 0⟩

/-- The bits lost by the subnormal shift of `k >= 1` places, as a second, independent triple (R63). -/
def grsOfShift (main k : Nat) : Grs where
  guard := main.testBit (k - 1)
  round := decide (2 ≤ k) && main.testBit (k - 2)
  sticky := decide (3 ≤ k) && decide (main % 2 ^ (k - 2) ≠ 0)

end Sys2Proof.Machine
end

