-- ==== Sys2Proof/Machine/Codec.lean ====
section
/-! DEFINITION. The shared datapath stages: the Aligner, the constant patterns, and BitCodec.pack with
its Rounder (spec/40_codec.md R53 to R63). The datapath's integers are unbounded (R7). -/

namespace Sys2Proof

/-- `NAN_MAG`, bits 62:0 of every NaN result: bits 62:52 all ones, bits 51:0 nonzero (R6, R55). -/
def Params.nanMag (p : Params) : BitVec 63 :=
  0x7FF#11 ++ BitVec.ofNat 52 (p.nanFractionPred.val + 1)

end Sys2Proof

namespace Sys2Proof.Machine

/-- `srs(m, k)`, the Aligner: shift right by `k`, the lowest bit forced to 1 when a discarded bit was
(R53). -/
def srs (m k : Nat) : Nat :=
  if k = 0 then m
  else if m % 2 ^ k ≠ 0 then (m >>> k) ||| 1
  else m >>> k

/-- `ZERO(s)` (R55). -/
def zeroPattern (s : Sign) : Bits64 := withSign s 0#63
/-- `INF(s)` (R55). -/
def infPattern (s : Sign) : Bits64 := withSign s 0x7FF0000000000000#63
/-- `NAN(s)` (R55). -/
def nanPattern (p : Params) (s : Sign) : Bits64 := withSign s p.nanMag

/-- A result decided before any stage that emits a tag (R72, R73, R81, R91). -/
def untagged (p : Bits64) : Response := ⟨p, []⟩

/-- A response whose step list begins with the tags emitted before (R10, R56). -/
def emitBefore (tags : List Tag) (r : Response) : Response := ⟨r.result, tags ++ r.tags⟩

/-- What pack step 2 leaves. -/
structure Normalised where
  exponent : Int
  significand : Nat
  tags : List Tag
deriving DecidableEq, Repr

/-- Pack step 2: shift the highest set bit to bit 55, a right shift through the Aligner (R58). -/
def normalise (e : Int) (m : Nat) : Normalised :=
  if 55 < msb m then
    let sh := msb m - 55
    ⟨e + sh, srs m sh, [.normalizeRight sh]⟩
  else if msb m < 55 then
    let sh := 55 - msb m
    ⟨e - sh, m <<< sh, [.normalizeLeft sh]⟩
  else ⟨e, m, []⟩

/-- A rounded value and the one round tag its rounding emits. -/
structure Rounded where
  main : Nat
  tag : Tag
deriving DecidableEq, Repr

/-- Increment the kept value or keep it, as its lost bits say (R59, R63). -/
def roundBy (main : Nat) (x : Grs) : Rounded :=
  if roundsUp main x then ⟨main + 1, .roundCarry⟩ else ⟨main, .roundKeep⟩

/-- Pack steps 3 and 4: split off the GRS bits and round the main value (R59). -/
def roundMain (m : Nat) : Rounded := roundBy (m >>> 3) (grsOf m)

/-- Pack step 5: a main value of `2^53` is shifted right once and the exponent raised (R60). -/
def propagateCarry (e : Int) (main : Nat) : Scaled :=
  if main = 2 ^ 53 then ⟨main >>> 1, e + 1⟩ else ⟨main, e⟩

/-- Pack step 6, underflow by `k = 1 - be`: shift, round a second time, or flush to zero (R63). A carry of
the second rounding to `2^52` lands in the exponent field. -/
def packSubnormal (s : Sign) (main k : Nat) : Response :=
  if 53 ≤ k then ⟨zeroPattern s, []⟩
  else
    let r := roundBy (main >>> k) (grsOfShift main k)
    ⟨withSign s (BitVec.ofNat 63 r.main), [r.tag]⟩

/-- The pattern of a normal value: sign, exponent field, the low 52 bits of the main value (R62). -/
def normalPattern (s : Sign) (be main : Nat) : Bits64 :=
  withSign s (BitVec.ofNat 11 be ++ BitVec.ofNat 52 main)

/-- Pack step 6 (R61 to R63). -/
def packExponent (s : Sign) (e : Int) (main : Nat) : Response :=
  if 2047 ≤ e + 1023 then ⟨infPattern s, []⟩
  else if 1 ≤ e + 1023 then ⟨normalPattern s (e + 1023).toNat main, []⟩
  else packSubnormal s main (1 - (e + 1023)).toNat

/-- BitCodec.pack with the Rounder: the pair `(e, m)` stands for `m × 2^(e - 55)` (R56 to R63). -/
def pack (s : Sign) (e : Int) (m : Nat) : Response :=
  if m >>> 3 = 0 then ⟨zeroPattern s, []⟩
  else
    let n := normalise e m
    let r := roundMain n.significand
    let c := propagateCarry n.exponent r.main
    emitBefore (n.tags ++ [r.tag]) (packExponent s c.exponent c.significand)

end Sys2Proof.Machine
end

