-- ==== Sys2Proof/WellFormed.lean ====
section
/-! DEFINITION. The checks a value must pass to be one the ports can carry or the unit can produce.
There is no check on `Instr`: every request is legal (spec/30_encoding.md R43). -/

namespace Sys2Proof

/-- A number is a request word: it fits the 130 bits of `REQ` (R38). -/
def isRequestNumber (w : Nat) : Bool := decide (w < 2 ^ 130)

/-- The argument of a tag is in its range (R44): `normalize:left` 1 to 52, `normalize:right` 1 to 50. -/
def Tag.wellFormed : Tag → Bool
  | .normalizeLeft n => decide (1 ≤ n) && decide (n ≤ 52)
  | .normalizeRight n => decide (1 ≤ n) && decide (n ≤ 50)
  | .align | .add | .subAB | .subBA | .roundCarry | .roundKeep => true

/-- The place of a tag in the order of R46: alignment, magnitude operation, normalisation, rounding. -/
def Tag.stage : Tag → Nat
  | .align => 0
  | .add | .subAB | .subBA => 1
  | .normalizeLeft _ | .normalizeRight _ => 2
  | .roundCarry | .roundKeep => 3

/-- A step list has the shape of R46: at most one `align`, one magnitude tag, one normalise tag and two
round tags, in this order. -/
def isStepList (tags : List Tag) : Bool := (tags.map Tag.stage).isSublist [0, 1, 2, 3, 3]

/-- A response the unit can produce: its step list has the shape of R46 and every argument is in
range (R44). -/
def Response.wellFormed (r : Response) : Bool := isStepList r.tags && r.tags.all Tag.wellFormed

end Sys2Proof
end

