-- ==== Sys2Proof/Decode.lean ====
section
/-! DEFINITION. The request word and the response word: decoding, rejecting by name, and then encoding
(spec/30_encoding.md R38, R39, R41, R44, R45, R47; spec/opcode_table.json). -/

namespace Sys2Proof

/-- Why a number or a word is rejected. No request word is: only a number too wide to be one. -/
inductive DecodeError where
  /-- A number of more than 130 bits: no port can carry it (R38). Raised by `decodeNumber`; safe. -/
  | notARequestWord
  /-- `tag_count` is 6 or 7 (R45, R46). Raised by `decodeResponse`; safe. -/
  | tagCountAboveFive
  /-- A slot at `tag_count` or above is not zero (R45). Raised by `readSlots`; safe. -/
  | unusedSlotNotZero
  /-- A tag that has no argument carries one (R44). Raised by `decodeTag`; safe. -/
  | argumentNotZero
  /-- A normalise tag's shift amount is outside its range (R44). Raised by `decodeTag`; safe. -/
  | shiftOutOfRange
  /-- The tags do not stand in the order of R46. Raised by `decodeResponse`; safe. -/
  | stepsOutOfOrder
deriving DecidableEq, Repr

/-! ### Requests: decoding -/

/-- `REQ[129:128]` (R38). -/
def opField (w : RequestWord) : BitVec 2 := w.extractLsb' 128 2
/-- `REQ[127:64]` (R38). -/
def aField (w : RequestWord) : Bits64 := w.extractLsb' 64 64
/-- `REQ[63:0]` (R38). -/
def bField (w : RequestWord) : Bits64 := w.extractLsb' 0 64

/-- The operator selector chooses the operation (R39); the four values are all used (R43). -/
def selectOp (op : BitVec 2) (a b : Bits64) : Instr :=
  if op = 0b00#2 then .add a b
  else if op = 0b01#2 then .sub a b
  else if op = 0b10#2 then .mul a b
  else .div a b

/-- Decode a request word. It never rejects: every request word is legal (R43). -/
def decode (w : RequestWord) : Instr := selectOp (opField w) (aField w) (bField w)

/-- Decode a number as a request word, rejecting one that is too wide (R38). -/
def decodeNumber (n : Nat) : Except DecodeError Instr :=
  if isRequestNumber n then .ok (decode (BitVec.ofNat 130 n)) else .error .notARequestWord

/-- The instruction the decoder reads from a word of the opcode table of `nbits` bits; the bits above
`nbits` are zero. The table's numbering of the bits is that of `REQ` (R38). -/
def decodeTableWord (nbits w : Nat) : Option Instr :=
  match decodeNumber (w % 2 ^ nbits) with
  | .ok i => some i
  | .error _ => none

/-! ### Requests: encoding -/

/-- The `op` code of a request (R39). -/
def opCode : Instr → BitVec 2
  | .add _ _ => 0b00#2
  | .sub _ _ => 0b01#2
  | .mul _ _ => 0b10#2
  | .div _ _ => 0b11#2

/-- Operand A (R38). -/
def operandA : Instr → Bits64
  | .add a _ | .sub a _ | .mul a _ | .div a _ => a

/-- Operand B (R38). -/
def operandB : Instr → Bits64
  | .add _ b | .sub _ b | .mul _ b | .div _ b => b

/-- The word of three request fields, `{op, a, b}` (R38). -/
def packRequest (op : BitVec 2) (a b : Bits64) : RequestWord := op ++ a ++ b

/-- The request word of a request (R38, R39). -/
def encode (i : Instr) : RequestWord := packRequest (opCode i) (operandA i) (operandB i)

/-! ### Responses: decoding, as the host reads them -/

/-- `RSP[111:48]` (R47). -/
def resultField (w : ResponseWord) : Bits64 := w.extractLsb' 48 64
/-- `RSP[47:45]` (R47). -/
def tagCountField (w : ResponseWord) : BitVec 3 := w.extractLsb' 45 3
/-- `RSP[44:0]` (R47). -/
def tagsField (w : ResponseWord) : BitVec 45 := w.extractLsb' 0 45

/-- A tag that takes no argument, read with argument `n` (R44). -/
def plainTag (t : Tag) (n : Nat) : Except DecodeError Tag :=
  if n = 0 then .ok t else .error .argumentNotZero

/-- A normalise tag, its argument checked against its range (R44). -/
def shiftTag (t : Tag) : Except DecodeError Tag :=
  if t.wellFormed then .ok t else .error .shiftOutOfRange

/-- Read one 9-bit slot `{code, n}` (R44, R45). -/
def decodeTag (slot : BitVec 9) : Except DecodeError Tag :=
  let code := slot.extractLsb' 6 3
  let n := (slot.extractLsb' 0 6).toNat
  if code = 0b000#3 then plainTag .align n
  else if code = 0b001#3 then plainTag .add n
  else if code = 0b010#3 then plainTag .subAB n
  else if code = 0b011#3 then plainTag .subBA n
  else if code = 0b100#3 then shiftTag (.normalizeLeft n)
  else if code = 0b101#3 then shiftTag (.normalizeRight n)
  else if code = 0b110#3 then plainTag .roundCarry n
  else plainTag .roundKeep n

/-- The five slots, slot 0 first (R45). -/
def slotsOf (tags : BitVec 45) : List (BitVec 9) :=
  [tags.extractLsb' 0 9, tags.extractLsb' 9 9, tags.extractLsb' 18 9, tags.extractLsb' 27 9,
    tags.extractLsb' 36 9]

/-- Read the first `count` slots as tags; the others must be zero (R45). -/
def readSlots : Nat → List (BitVec 9) → Except DecodeError (List Tag)
  | _, [] => .ok []
  | 0, x :: xs => if x = 0 then readSlots 0 xs else .error .unusedSlotNotZero
  | n + 1, x :: xs =>
    match decodeTag x with
    | .error e => .error e
    | .ok t =>
      match readSlots n xs with
      | .error e => .error e
      | .ok ts => .ok (t :: ts)

/-- Read a response word: the reader uses `tag_count`, not the slot contents, to know how many tags
there are (R45). -/
def decodeResponse (w : ResponseWord) : Except DecodeError Response :=
  if 5 < (tagCountField w).toNat then .error .tagCountAboveFive
  else
    match readSlots (tagCountField w).toNat (slotsOf (tagsField w)) with
    | .error e => .error e
    | .ok ts => if isStepList ts then .ok ⟨resultField w, ts⟩ else .error .stepsOutOfOrder

/-! ### Responses: encoding -/

/-- The 3-bit code of a tag (R44). -/
def tagCode : Tag → BitVec 3
  | .align => 0b000#3
  | .add => 0b001#3
  | .subAB => 0b010#3
  | .subBA => 0b011#3
  | .normalizeLeft _ => 0b100#3
  | .normalizeRight _ => 0b101#3
  | .roundCarry => 0b110#3
  | .roundKeep => 0b111#3

/-- The 6-bit argument of a tag, 0 for every tag but the two normalise tags (R44). -/
def tagArgument : Tag → BitVec 6
  | .normalizeLeft n | .normalizeRight n => BitVec.ofNat 6 n
  | .align | .add | .subAB | .subBA | .roundCarry | .roundKeep => 0#6

/-- The 9-bit slot value `{code, n}` of a tag (R45). -/
def tagSlot (t : Tag) : BitVec 9 := tagCode t ++ tagArgument t

/-- Slot `i` of a step list: its tag `i`, or all zero at `tag_count` and above (R45). -/
def slotAt (tags : List Tag) (i : Nat) : BitVec 9 :=
  match tags[i]? with
  | some t => tagSlot t
  | none => 0#9

/-- The 45 bits of `tags`, slot 0 lowest (R45). -/
def packSlots (tags : List Tag) : BitVec 45 :=
  slotAt tags 4 ++ slotAt tags 3 ++ slotAt tags 2 ++ slotAt tags 1 ++ slotAt tags 0

/-- `tag_count` of a step list (R45). -/
def tagCount (tags : List Tag) : BitVec 3 := BitVec.ofNat 3 tags.length

/-- The word of three response fields, `{result, tag_count, tags}` (R47). -/
def packResponse (result : Bits64) (count : BitVec 3) (tags : BitVec 45) : ResponseWord :=
  result ++ count ++ tags

/-- The response word of a response (R26, R45, R47). -/
def encodeResponse (r : Response) : ResponseWord :=
  packResponse r.result (tagCount r.tags) (packSlots r.tags)

end Sys2Proof
end

