-- ==== Sys2Proof/Machine/State.lean ====
section
/-! DEFINITION. The state of FPEV-CORE and of its one other agent, the host. The unit has no
architectural state: no register, flag, program counter, mode or memory (spec/10_state.md R13 to R18,
spec/20_memory.md R29). What it has is the queue of requests in flight (R22); the rest of this
state is what the host drives on the input ports and what it has received (R20, R21, R23, R28). -/

namespace Sys2Proof.Machine

/-- The values the host drives on the unit's input ports for one clock edge (R20). -/
structure PortsIn where
  /-- Reset, active high (R112). -/
  rst : Bool
  /-- The host presents a request (R21). -/
  reqValid : Bool
  op : BitVec 2
  a : Bits64
  b : Bits64
  /-- The host takes the response (R23). -/
  rspReady : Bool
deriving DecidableEq, Repr

/-- A request in flight: the request, its response already computed (R22 lets a model store either), and
the edges that still pass, once it is at the head, before its response is presented (R24). -/
structure Entry where
  request : Instr
  response : Response
  wait : Nat
deriving DecidableEq, Repr

/-- The machine between two clock edges. `inflight` is the unit's (R22); `drive`, `held`, `answered`
and `dropped` are the host's side of the ports (R21, R23, R28, R119); `edges` is the model's own. -/
structure State where
  /-- The requests in flight, oldest first (R22). -/
  inflight : List Entry
  /-- What the host drives at the coming clock edges, the next one first; past the end it is idle. -/
  drive : List PortsIn
  /-- The request presented at the last edge while `req_ready = 0`: the host must hold it (R21). -/
  held : Option RequestWord
  /-- The responses the host has taken, oldest first, each with its request (R23, R25). -/
  answered : List (Instr × Response)
  /-- The accepted requests that a reset dropped: they get no response (R112, I9). -/
  dropped : List Instr
  /-- The model's own field: a count of edges, which the free values are applied to (R24, I6). -/
  edges : Nat
deriving DecidableEq, Repr

/-- The unit raises no exception, trap or fault for any request (R100), so there is no fault. -/
inductive Fault where
deriving DecidableEq, Repr

/-- Why a step answers with no next state. -/
inductive Refusal where
  /-- The instruction has no meaning yet. No arm raises it. Safe. -/
  | notModelled (mnemonic : String)
  /-- Raised by the clock edge, never by an instruction: the host changed `op`, `a` or `b` of a request it
  held while `req_ready = 0`. R28: "a host that changes operands before acceptance is unmodelled: claims
  say nothing of it". Safe. -/
  | hostChangedHeldRequest
deriving DecidableEq, Repr

/-- The machine right after reset (R27): nothing is in flight, so `req_ready = 1` and `rsp_valid = 0`. The
host has driven nothing and received nothing. -/
def State.reset : State where
  inflight := []
  drive := []
  held := none
  answered := []
  dropped := []
  edges := 0

end Sys2Proof.Machine
end

