-- ==== Sys2Proof/Machine/Ops.lean ====
section
/-! DEFINITION. The named operations over the state: the ports, the queue, the handshake and reset
(spec/10_state.md R20 to R27; spec/70_reset_and_hazards.md R112). There is no memory and no register to
read or write (R14, R29), and no exception to take or to return from: nothing traps (spec/60_exceptions.md
R100, R104, R105). -/

namespace Sys2Proof

/-- `DEPTH`, the number of requests the unit may hold in flight (R6, R22). -/
def Params.depth (p : Params) : Nat := Nat.succ p.depthPred

end Sys2Proof

namespace Sys2Proof.Machine

/-! ### The input ports -/

/-- The inputs of a host that drives nothing. -/
def PortsIn.idle : PortsIn := ⟨false, false, 0, 0, 0, false⟩

/-- The inputs of one edge that presents a request word and takes no response (R21). -/
def PortsIn.ofRequest (w : RequestWord) : PortsIn :=
  ⟨false, true, opField w, aField w, bField w, false⟩

/-- The request word on the input ports (R38). -/
def PortsIn.request (x : PortsIn) : RequestWord := packRequest x.op x.a x.b

/-- The input ports at the next clock edge (R20). -/
def portsIn (s : State) : PortsIn := s.drive.headD PortsIn.idle

/-! ### The output ports -/

/-- `req_ready = 1` exactly when fewer than `DEPTH` requests are in flight (R22). -/
def reqReady (p : Params) (s : State) : Bool := decide (s.inflight.length < p.depth)

/-- The response presented, if one is: the head's, once its wait is over (R23, R24). -/
def presented (s : State) : Option Response :=
  match s.inflight with
  | [] => none
  | e :: _ => if e.wait = 0 then some e.response else none

/-- `rsp_valid` (R23). -/
def rspValid (s : State) : Bool := (presented s).isSome

/-- The port `result`; free while `rsp_valid = 0` (R23, I6). -/
def resultPort (p : Params) (s : State) : Bits64 :=
  match presented s with
  | some r => r.result
  | none => p.idleResult s.edges

/-- The port `tag_count`; free while `rsp_valid = 0` (R23, I6). -/
def tagCountPort (p : Params) (s : State) : BitVec 3 :=
  match presented s with
  | some r => tagCount r.tags
  | none => p.idleTagCount s.edges

/-- The port `tags`; free while `rsp_valid = 0` (R23, I6). -/
def tagsPort (p : Params) (s : State) : BitVec 45 :=
  match presented s with
  | some r => packSlots r.tags
  | none => p.idleTags s.edges

/-- The three response ports as one word (R47). -/
def responsePort (p : Params) (s : State) : ResponseWord :=
  packResponse (resultPort p s) (tagCountPort p s) (tagsPort p s)

/-! ### What an edge does -/

/-- At the next edge a request is accepted (R21). -/
def acceptsRequest (p : Params) (s : State) : Bool :=
  !(portsIn s).rst && (portsIn s).reqValid && reqReady p s

/-- At the next edge the presented response is taken (R23). -/
def takesResponse (s : State) : Bool :=
  !(portsIn s).rst && rspValid s && (portsIn s).rspReady

/-- The host changed the request it must hold (R21, R28). Deasserting `req_valid` withdraws the request,
and a reset edge samples none, so neither is such a change. -/
def holdBroken (s : State) : Bool :=
  match s.held with
  | none => false
  | some w => !(portsIn s).rst && (portsIn s).reqValid && decide ((portsIn s).request ≠ w)

/-- One edge passes for the request at the head of the queue (R24). -/
def tickHead : List Entry → List Entry
  | [] => []
  | e :: es => ⟨e.request, e.response, e.wait - 1⟩ :: es

/-- The queue after an edge, less what it accepts: taking a response removes the head (R23), and one edge
passes for a head that stays. -/
def queueAfter (s : State) : List Entry :=
  if takesResponse s then s.inflight.tail else tickHead s.inflight

/-- The responses the host has after an edge (R23). -/
def answeredAfter (s : State) : List (Instr × Response) :=
  if takesResponse s then s.answered ++ (s.inflight.take 1).map (fun e => (e.request, e.response))
  else s.answered

/-- The request the host must hold after an edge: one presented while `req_ready = 0` (R21). -/
def heldAfter (p : Params) (s : State) : Option RequestWord :=
  if (portsIn s).reqValid && !reqReady p s then some (portsIn s).request else none

/-- All that an edge with `rst = 0` does, but for the accepted request's own effect. -/
def handshake (p : Params) (s : State) : State where
  inflight := queueAfter s
  drive := s.drive.tail
  held := heldAfter p s
  answered := answeredAfter s
  dropped := s.dropped
  edges := s.edges + 1

/-- An edge with `rst = 1`: the queue is emptied, nothing is accepted or taken, and nothing else changes
(R112). -/
def resetEdge (s : State) : State where
  inflight := []
  drive := s.drive.tail
  held := none
  answered := s.answered
  dropped := s.dropped ++ s.inflight.map Entry.request
  edges := s.edges + 1

/-- Put an accepted request, with its response, at the tail of the queue (R22, R25). How long it will wait
at the head is free (R24). -/
def enqueue (p : Params) (i : Instr) (r : Response) (s : State) : State :=
  { s with inflight := s.inflight ++ [⟨i, r, p.latency s.edges i⟩] }

/-- One rising edge of `clk` (R21, R23, R112). `perform` is the effect of an accepted request. -/
def clockEdge (p : Params) (perform : Instr → State → Host.Outcome State Fault Refusal) (s : State) :
    Host.Outcome State Fault Refusal :=
  if (portsIn s).rst then .next (resetEdge s)
  else if holdBroken s then .refused .hostChangedHeldRequest
  else if acceptsRequest p s then perform (decode (portsIn s).request) (handshake p s)
  else .next (handshake p s)

/-- The state whose next edge presents the request word `w`, and presents it to a unit that is ready: a
full queue is emptied, and no earlier request is held. -/
def presentNext (p : Params) (w : RequestWord) (s : State) : State :=
  { s with
    inflight := if reqReady p s then s.inflight else []
    drive := PortsIn.ofRequest w :: s.drive
    held := none }

end Sys2Proof.Machine
end

