-- ==== Sys2Proof/Machine/AddSub.lean ====
section
/-! DEFINITION. ADD and SUB, over the one procedure ADDSUB (spec/41_add_sub.md R70 to R77). -/

namespace Sys2Proof.Machine

/-- The operands after alignment: the common exponent, both magnitudes and the tags emitted. -/
structure Aligned where
  exponent : Int
  mA : Nat
  mB : Nat
  tags : List Tag
deriving DecidableEq, Repr

/-- The tag of an alignment by `d`: emitted exactly when a shift happens (R75). -/
def alignTag (d : Nat) : List Tag := if 0 < d then [.align] else []

/-- Stages 3 and 4: give both significands three zero GRS bits, and align the one with the smaller
exponent to the larger through the Aligner (R74, R75). -/
def alignOperands (eA : Int) (sigA : Nat) (eB : Int) (sigB : Nat) : Aligned :=
  if eB ≤ eA then
    let d := (eA - eB).toNat
    ⟨eA, sigA <<< 3, srs (sigB <<< 3) d, alignTag d⟩
  else
    let d := (eB - eA).toNat
    ⟨eB, srs (sigA <<< 3) d, sigB <<< 3, alignTag d⟩

/-- Stage 5: add or subtract the aligned magnitudes and pack; equal magnitudes of opposite sign give `+0`
(R76, R77). -/
def combineMagnitudes (sA sB : Sign) (x : Aligned) : Response :=
  if sA = sB then emitBefore (x.tags ++ [.add]) (pack sA x.exponent (x.mA + x.mB))
  else if x.mB < x.mA then emitBefore (x.tags ++ [.subAB]) (pack sA x.exponent (x.mA - x.mB))
  else if x.mA < x.mB then emitBefore (x.tags ++ [.subBA]) (pack sB x.exponent (x.mB - x.mA))
  else ⟨zeroPattern false, x.tags⟩

/-- Stage 2, the zero shortcut: the other operand, unchanged. `ZERO_ORDER` says which zero is tested
first (R73). -/
def zeroShortcut (order : ZeroOrder) (zeroA zeroB : Bool) (a b' : Bits64) : Option Bits64 :=
  match order with
  | .aFirst => if zeroA then some b' else if zeroB then some a else none
  | .bFirst => if zeroB then some a else if zeroA then some b' else none

/-- ADDSUB: flip B's sign for a subtraction, then the NaN and infinity specials in their order (R72), the
zero shortcut (R73) and the arithmetic (R74 to R77). -/
def addSub (p : Params) (a b : Bits64) (subtract : Bool) : Response :=
  match unpack a, unpack b with
  | .nan _, _ => untagged (nanPattern p false)
  | _, .nan _ => untagged (nanPattern p false)
  | .infinity sA, .infinity tB =>
    if sA = (tB ^^ subtract) then untagged (infPattern sA) else untagged (nanPattern p false)
  | .infinity sA, .finite _ _ _ _ => untagged (infPattern sA)
  | .finite _ _ _ _, .infinity tB => untagged (infPattern (tB ^^ subtract))
  | .finite sA eA mA subA, .finite tB eB mB subB =>
    let sB := tB ^^ subtract
    let zeroA := (Unpacked.finite sA eA mA subA).isZero
    let zeroB := (Unpacked.finite tB eB mB subB).isZero
    match zeroShortcut p.zeroOrder zeroA zeroB a (withSign sB (magnitudeField b)) with
    | some r => untagged r
    | none => combineMagnitudes sA sB (alignOperands eA mA eB mB)

/-- The response to `ADD A, B` (R70). -/
def addResponse (p : Params) (a b : Bits64) : Response := addSub p a b false

/-- The response to `SUB A, B` (R71). -/
def subResponse (p : Params) (a b : Bits64) : Response := addSub p a b true

/-- `ADD A, B`, accepted: its response joins the queue (R70, R22). -/
def execAdd (a b : Bits64) (s : State) : Host.Outcome State Fault Refusal :=
  .next (enqueue Config.params (.add a b) (addResponse Config.params a b) s)

/-- `SUB A, B`, accepted: its response joins the queue (R71, R22). -/
def execSub (a b : Bits64) (s : State) : Host.Outcome State Fault Refusal :=
  .next (enqueue Config.params (.sub a b) (subResponse Config.params a b) s)

end Sys2Proof.Machine
end

