-- ==== Sys2Proof/Machine/Divide.lean ====
section
/-! DEFINITION. DIV (spec/43_divide.md R90 to R93). -/

namespace Sys2Proof.Machine

/-- The long division: the dividend is shifted left by 59, and a nonzero remainder is folded into the
quotient's lowest bit (R92). -/
def longDivide (sigA sigB : Nat) : Nat :=
  if (sigA <<< 59) % sigB ≠ 0 then ((sigA <<< 59) / sigB) ||| 1 else (sigA <<< 59) / sigB

/-- Stages 2 and 3: divide the widened significands and pack (R92, R93). -/
def divideFinite (s : Sign) (A B : Scaled) : Response :=
  pack s (A.exponent - B.exponent - 4) (longDivide A.significand B.significand)

/-- DIVSTAGE: the sign is the XOR of the operand signs on every path; the specials in their order, then
the arithmetic (R91 to R93). -/
def divResponse (p : Params) (a b : Bits64) : Response :=
  match unpack a, unpack b with
  | .nan sA, B => untagged (nanPattern p (sA ^^ B.sign))
  | A, .nan sB => untagged (nanPattern p (A.sign ^^ sB))
  | .infinity sA, .infinity sB => untagged (nanPattern p (sA ^^ sB))
  | .infinity sA, .finite sB _ _ _ => untagged (infPattern (sA ^^ sB))
  | .finite sA _ _ _, .infinity sB => untagged (zeroPattern (sA ^^ sB))
  | .finite sA eA mA subA, .finite sB eB mB subB =>
    let zeroA := (Unpacked.finite sA eA mA subA).isZero
    let zeroB := (Unpacked.finite sB eB mB subB).isZero
    if zeroA && zeroB then untagged (nanPattern p (sA ^^ sB))
    else if zeroB then untagged (infPattern (sA ^^ sB))
    else if zeroA then untagged (zeroPattern (sA ^^ sB))
    else divideFinite (sA ^^ sB) (widen mA eA) (widen mB eB)

/-- `DIV A, B`, accepted: its response joins the queue (R90, R22). -/
def execDiv (a b : Bits64) (s : State) : Host.Outcome State Fault Refusal :=
  .next (enqueue Config.params (.div a b) (divResponse Config.params a b) s)

end Sys2Proof.Machine
end

