-- ==== Sys2Proof/Machine/Multiply.lean ====
section
/-! DEFINITION. MUL (spec/42_multiply.md R80 to R83). -/

namespace Sys2Proof.Machine

/-- Stage 2: the exact product of the widened significands, packed (R83). -/
def multiplyFinite (s : Sign) (A B : Scaled) : Response :=
  pack s (A.exponent + B.exponent - 49) (A.significand * B.significand)

/-- MULSTAGE: the sign is the XOR of the operand signs on every path; the specials in their order, then
the arithmetic (R81, R83). -/
def mulResponse (p : Params) (a b : Bits64) : Response :=
  match unpack a, unpack b with
  | .nan sA, B => untagged (nanPattern p (sA ^^ B.sign))
  | A, .nan sB => untagged (nanPattern p (A.sign ^^ sB))
  | .infinity sA, .infinity sB => untagged (infPattern (sA ^^ sB))
  | .infinity sA, .finite sB e m sub =>
    if (Unpacked.finite sB e m sub).isZero then untagged (nanPattern p (sA ^^ sB))
    else untagged (infPattern (sA ^^ sB))
  | .finite sA e m sub, .infinity sB =>
    if (Unpacked.finite sA e m sub).isZero then untagged (nanPattern p (sA ^^ sB))
    else untagged (infPattern (sA ^^ sB))
  | .finite sA eA mA subA, .finite sB eB mB subB =>
    if (Unpacked.finite sA eA mA subA).isZero || (Unpacked.finite sB eB mB subB).isZero then
      untagged (zeroPattern (sA ^^ sB))
    else multiplyFinite (sA ^^ sB) (widen mA eA) (widen mB eB)

/-- `MUL A, B`, accepted: its response joins the queue (R80, R22). -/
def execMul (a b : Bits64) (s : State) : Host.Outcome State Fault Refusal :=
  .next (enqueue Config.params (.mul a b) (mulResponse Config.params a b) s)

end Sys2Proof.Machine
end

