-- ==== Sys2Proof/Machine/Dispatch.lean ====
section
/-! DEFINITION. One arm per operation of the unit (spec/30_encoding.md R39). -/

namespace Sys2Proof.Machine

/-- The effect of a request the unit has accepted. Whether it accepts one, and that it holds at most `DEPTH`,
is the clock edge's (`clockEdge`, R21, R22). -/
def exec (i : Instr) (s : State) : Host.Outcome State Fault Refusal :=
  match i with
  | .add a b => Sys2Proof.Machine.execAdd a b s
  | .sub a b => Sys2Proof.Machine.execSub a b s
  | .mul a b => Sys2Proof.Machine.execMul a b s
  | .div a b => Sys2Proof.Machine.execDiv a b s

end Sys2Proof.Machine
end

