-- ==== Sys2Proof/Machine/Step.lean ====
section
/-! DEFINITION. One step of the machine is one rising edge of `clk` (spec/10_state.md R21, R23). -/

namespace Sys2Proof.Machine

/-- One rising edge of `clk`, at the parameters of the unit at hand. -/
def step (s : State) : Host.Outcome State Fault Refusal := clockEdge Config.params exec s

/-- The state whose next edge presents the request that the opcode table's word `w` of `nbits` bits
stands for. The unit fetches nothing (R15): a request comes from the host, so this is the host
driving it on the ports. -/
def State.withFetchWord (s : State) (nbits w : Nat) : State :=
  presentNext Config.params (BitVec.ofNat 130 (w % 2 ^ nbits)) s

end Sys2Proof.Machine
end

