-- ==== Sys2Proof/Machine/Respond.lean ====
section
/-! DEFINITION. The content of the response to a request, as one function of the request and the
parameters alone: the spec's `exec(op, a, b)` (spec/00_scope.md R11; spec/10_state.md R26). Claims are
stated in terms of it; the machine's own `exec` reaches it through one meaning per instruction. -/

namespace Sys2Proof.Machine

/-- `exec(op, a, b)` of R11 and R26. -/
def respond (p : Params) : Instr → Response
  | .add a b => addResponse p a b
  | .sub a b => subResponse p a b
  | .mul a b => mulResponse p a b
  | .div a b => divResponse p a b

end Sys2Proof.Machine
end

