-- ==== Sys2Proof/Machine/Text.lean ====
section
/-! DEFINITION. The text forms the host uses: the 64-character form of a pattern and its display form
(spec/30_encoding.md R40), and one request in assembler form (R48). The unit never sees text
(spec/10_state.md R28). -/

namespace Sys2Proof.Machine

/-- Why a text is rejected on the host's side, before it reaches the unit. -/
inductive TextError where
  /-- *MalformedBitPattern*: not exactly the digits of one 64-bit pattern (R28, R40, R48, R100). -/
  | malformedBitPattern
  /-- Not one of `ADD`, `SUB`, `MUL`, `DIV` (R39, R48). -/
  | unknownMnemonic
  /-- Not of the form `MNEMONIC A, B` or `vN = MNEMONIC A, B` (R48). -/
  | malformedLine
  /-- A name `vN` that no earlier line gives a value (R48, R117). -/
  | undefinedName
deriving DecidableEq, Repr

/-- The value of a binary digit. -/
def binaryDigit (c : Char) : Option Nat :=
  if c = '0' then some 0 else if c = '1' then some 1 else none

/-- The value of a decimal digit. -/
def decimalDigit (c : Char) : Option Nat :=
  if 48 ≤ c.toNat ∧ c.toNat ≤ 57 then some (c.toNat - 48) else none

/-- The value of a hexadecimal digit, in either case. -/
def hexDigit (c : Char) : Option Nat :=
  if 48 ≤ c.toNat ∧ c.toNat ≤ 57 then some (c.toNat - 48)
  else if 65 ≤ c.toNat ∧ c.toNat ≤ 70 then some (c.toNat - 55)
  else if 97 ≤ c.toNat ∧ c.toNat ≤ 102 then some (c.toNat - 87)
  else none

/-- Read digits, most significant first, onto a number already read. -/
def readDigits (base : Nat) (digit : Char → Option Nat) : Nat → List Char → Option Nat
  | n, [] => some n
  | n, c :: cs =>
    match digit c with
    | none => none
    | some d => readDigits base digit (n * base + d) cs

/-- Read exactly `count` digits as a pattern. -/
def readPattern (base : Nat) (digit : Char → Option Nat) (count : Nat) (cs : List Char) :
    Except TextError Bits64 :=
  if cs.length = count then
    match readDigits base digit 0 cs with
    | some n => .ok (BitVec.ofNat 64 n)
    | none => .error .malformedBitPattern
  else .error .malformedBitPattern

/-- Read the text form of a pattern: exactly 64 characters `0` or `1`, most significant first (R40). -/
def parsePattern (cs : List Char) : Except TextError Bits64 := readPattern 2 binaryDigit 64 cs

/-- Character `i` of the text form of a pattern is bit `63 - i` (R40). -/
def patternText (p : Bits64) : List Char :=
  (List.range 64).map fun i => if p.getLsbD (63 - i) then '1' else '0'

/-- The display form: sign, exponent field and fraction, separated by one space (R40). -/
def displayText (p : Bits64) : List Char :=
  (patternText p).take 1 ++ ' ' :: ((patternText p).drop 1).take 11 ++ ' ' :: (patternText p).drop 12

/-- A hexadecimal digit. -/
def hexChar (n : Nat) : Char := Char.ofNat (if n < 10 then 48 + n else 55 + n)

/-- The 16 hexadecimal digits of a pattern (R48). -/
def hexText (p : Bits64) : List Char :=
  (List.range 16).map fun i => hexChar (p.toNat / 16 ^ (15 - i) % 16)

/-- An operand as written: a pattern, or the name of a host value (R48). -/
inductive OperandText where
  | pattern (p : Bits64)
  | name (n : Nat)
deriving DecidableEq, Repr

/-- Read a host value's number, at least one decimal digit. -/
def parseNumber (cs : List Char) : Except TextError Nat :=
  match cs with
  | [] => .error .malformedLine
  | _ :: _ =>
    match readDigits 10 decimalDigit 0 cs with
    | some n => .ok n
    | none => .error .malformedLine

/-- Read an operand: `0x` and 16 hexadecimal digits, `0b` and 64 binary digits, or `vN` (R48). -/
def parseOperand : List Char → Except TextError OperandText
  | '0' :: 'x' :: cs =>
    match readPattern 16 hexDigit 16 cs with
    | .ok p => .ok (.pattern p)
    | .error e => .error e
  | '0' :: 'b' :: cs =>
    match parsePattern cs with
    | .ok p => .ok (.pattern p)
    | .error e => .error e
  | 'v' :: cs =>
    match parseNumber cs with
    | .ok n => .ok (.name n)
    | .error e => .error e
  | _ => .error .malformedBitPattern

/-- The operator a mnemonic names (R39). -/
def mnemonicOp : List Char → Option (BitVec 2)
  | ['A', 'D', 'D'] => some 0b00#2
  | ['S', 'U', 'B'] => some 0b01#2
  | ['M', 'U', 'L'] => some 0b10#2
  | ['D', 'I', 'V'] => some 0b11#2
  | _ => none

/-- The mnemonic of an operator (R39). -/
def mnemonicText (op : BitVec 2) : List Char :=
  if op = 0b00#2 then ['A', 'D', 'D']
  else if op = 0b01#2 then ['S', 'U', 'B']
  else if op = 0b10#2 then ['M', 'U', 'L']
  else ['D', 'I', 'V']

/-- One request as written (R48). -/
structure SourceRequest where
  op : BitVec 2
  a : OperandText
  b : OperandText
deriving DecidableEq, Repr

/-- The text before and after the first `c`, if there is one. -/
def splitAtChar (c : Char) : List Char → Option (List Char × List Char)
  | [] => none
  | x :: xs =>
    if x = c then some ([], xs)
    else
      match splitAtChar c xs with
      | none => none
      | some (l, r) => some (x :: l, r)

/-- Read both operands of `A, B` for an operator. -/
def parseOperands (op : BitVec 2) (l r : List Char) : Except TextError SourceRequest :=
  match parseOperand l with
  | .error e => .error e
  | .ok a =>
    match parseOperand r with
    | .error e => .error e
    | .ok b => .ok ⟨op, a, b⟩

/-- Read one request, `MNEMONIC A, B` (R48). -/
def parseRequest (cs : List Char) : Except TextError SourceRequest :=
  match splitAtChar ' ' cs with
  | none => .error .malformedLine
  | some (m, rest) =>
    match mnemonicOp m with
    | none => .error .unknownMnemonic
    | some op =>
      match splitAtChar ',' rest with
      | some (l, ' ' :: r) => parseOperands op l r
      | some _ => .error .malformedLine
      | none => .error .malformedLine

/-- A request written with hexadecimal operands (R48). -/
def hexRequestText (op : BitVec 2) (a b : Bits64) : List Char :=
  mnemonicText op ++ [' ', '0', 'x'] ++ hexText a ++ [',', ' ', '0', 'x'] ++ hexText b

/-- A request written with binary operands (R48). -/
def binaryRequestText (op : BitVec 2) (a b : Bits64) : List Char :=
  mnemonicText op ++ [' ', '0', 'b'] ++ patternText a ++ [',', ' ', '0', 'b'] ++ patternText b

end Sys2Proof.Machine
end

