-- ==== Sys2Proof/Machine/HostProgram.lean ====
section
/-! DEFINITION. A host program: lines `vN = MNEMONIC A, B`, assembled and performed one after the other
(spec/30_encoding.md R48; spec/70_reset_and_hazards.md R117). The names are the host's bookkeeping, not
state of the unit. -/

namespace Sys2Proof.Machine

/-- One line of a host program (R48). -/
structure SourceLine where
  target : Nat
  request : SourceRequest
deriving DecidableEq, Repr

/-- The values the host holds by name, the latest first. -/
abbrev HostValues := List (Nat × Bits64)

/-- Read one line, `vN = MNEMONIC A, B` (R48). -/
def parseLine (cs : List Char) : Except TextError SourceLine :=
  match splitAtChar ' ' cs with
  | some ('v' :: num, '=' :: ' ' :: rest) =>
    match parseNumber num with
    | .error e => .error e
    | .ok n =>
      match parseRequest rest with
      | .error e => .error e
      | .ok r => .ok ⟨n, r⟩
  | some _ => .error .malformedLine
  | none => .error .malformedLine

/-- The pattern an operand stands for; a name needs a result taken earlier (R48, R117). -/
def operandValue (v : HostValues) : OperandText → Except TextError Bits64
  | .pattern p => .ok p
  | .name n =>
    match v.lookup n with
    | some p => .ok p
    | none => .error .undefinedName

/-- Assemble a request to its one request word once its names are replaced by their values (R48). -/
def assemble (v : HostValues) (r : SourceRequest) : Except TextError RequestWord :=
  match operandValue v r.a with
  | .error e => .error e
  | .ok a =>
    match operandValue v r.b with
    | .error e => .error e
    | .ok b => .ok (packRequest r.op a b)

/-- Perform the lines in order, each after the response of the one before has been taken (R117); the
answer holds every host value, the latest first. -/
def performLines (p : Params) : List SourceLine → HostValues → Except TextError HostValues
  | [], v => .ok v
  | l :: ls, v =>
    match assemble v l.request with
    | .error e => .error e
    | .ok w => performLines p ls ((l.target, (respond p (decode w)).result) :: v)

end Sys2Proof.Machine
end

