-- ==== Sys2Proof/Machine/Value.lean ====
section
/-! DEFINITION. The value of a pattern (spec/00_scope.md R12), as a whole number of `2^-1074`, the smallest
subnormal. No rule of the datapath reads it; claims about rounding are stated with it. -/

namespace Sys2Proof.Machine

/-- `(-1)^s × magnitude`. -/
def applySign (s : Sign) (magnitude : Nat) : Int := if s then -(magnitude : Int) else magnitude

/-- The value of a finite pattern divided by `2^-1074`: a significand `m` at exponent `e` denotes
`m × 2^(e - 52)` (R12). An infinity or a NaN has no value. -/
def units (p : Bits64) : Option Int :=
  match unpack p with
  | .nan _ => none
  | .infinity _ => none
  | .finite s e m _ => some (applySign s (m * 2 ^ (e + 1022).toNat))

end Sys2Proof.Machine
end

