-- ==== Sys2Proof/Safety.lean ====
section
/-! DEFINITION. What claims are stated in: the classes of a pattern by its fields, the invariant, the
host's duty, the end of a run, and what happens over several edges. -/

namespace Sys2Proof.Machine

/-! ### Classes of a pattern (spec/40_codec.md R50, R51), by its bits -/

/-- Exponent field all ones, fraction nonzero. -/
abbrev IsNaN (p : Bits64) : Prop := p.extractLsb' 52 11 = 0x7FF#11 ∧ p.extractLsb' 0 52 ≠ 0#52
/-- Exponent field all ones, fraction zero. -/
abbrev IsInf (p : Bits64) : Prop := p.extractLsb' 52 11 = 0x7FF#11 ∧ p.extractLsb' 0 52 = 0#52
/-- All bits but the sign are zero. -/
abbrev IsZero (p : Bits64) : Prop := p.extractLsb' 0 63 = 0#63
/-- Neither NaN nor infinity. -/
abbrev IsFinite (p : Bits64) : Prop := p.extractLsb' 52 11 ≠ 0x7FF#11
/-- Finite and not zero: the class "finite" of the outcome tables. -/
abbrev IsFiniteNonzero (p : Bits64) : Prop := IsFinite p ∧ ¬ IsZero p

/-- Bit 63 (R9). -/
def signBit (p : Bits64) : Bool := p.getLsbD 63

/-- The pattern with its sign bit flipped (R71). -/
def flipSign (p : Bits64) : Bits64 := p ^^^ 0x8000000000000000#64

/-- Bits 62:0 as a number: patterns of one sign are ordered by it. -/
def magnitudeOf (p : Bits64) : Nat := (p.extractLsb' 0 63).toNat

/-- B after the flip of SUB (R71). -/
def effectiveB (subtract : Bool) (b : Bits64) : Bits64 := if subtract then flipSign b else b

/-- `SUB A, B` or `ADD A, B`. -/
def addSubInstr (subtract : Bool) (a b : Bits64) : Instr := if subtract then .sub a b else .add a b

/-- Operands of opposite sign, of which the larger is `±2^k` and the other its neighbour toward zero, with
`k >= -1021`: the cancellation below one unit (R77). -/
abbrev CancelsBelowUnit (a b : Bits64) : Prop :=
  signBit a ≠ signBit b ∧
  ((magnitudeOf a = magnitudeOf b + 1 ∧ magnitudeOf a % 2 ^ 52 = 0 ∧ 2 ^ 53 ≤ magnitudeOf a) ∨
    (magnitudeOf b = magnitudeOf a + 1 ∧ magnitudeOf b % 2 ^ 52 = 0 ∧ 2 ^ 53 ≤ magnitudeOf b))

/-- A request accepted in `s` completes, and `r` is its response (R22, R26). -/
abbrev Answers (i : Instr) (r : Response) (s : State) : Prop :=
  exec i s = .next (enqueue Config.params i r s)

/-- `r` is a binary64 pattern nearest to `x / d` units of `2^-1074`, the even one of two (`d > 0`). -/
def IsNearest (r : Bits64) (x : Int) (d : Int) : Prop :=
  ∃ ur, units r = some ur ∧ ∀ q uq, units q = some uq →
    |ur * d - x| ≤ |uq * d - x| ∧ (uq ≠ ur → |uq * d - x| = |ur * d - x| → r.getLsbD 0 = false)

/-! ### The state -/

/-- What every edge keeps: the queue's bound (R22), and that every response, in flight or received, is the
response to its own request (R26). -/
structure Invariant (p : Params) (s : State) : Prop where
  queueBound : s.inflight.length ≤ p.depth
  ownResponse : ∀ e ∈ s.inflight, e.response = respond p e.request
  ownAnswer : ∀ x ∈ s.answered, x.2 = respond p x.1

/-- The host holds the request it must hold at the next edge (R21, R28). -/
abbrev HostHolds (s : State) : Prop := holdBroken s = false

/-- The requests the unit owes or has given a response to, in the order it accepted them. -/
def history (s : State) : List Instr := s.answered.map Prod.fst ++ s.inflight.map Entry.request

/-- A run has ended (R119): every request has been presented, every response taken, nothing is in flight,
and no request was dropped by a reset (spec/93_implementation_defined.md I9). -/
abbrev RunEnded (s : State) : Prop :=
  (∀ x ∈ s.drive, x.reqValid = false) ∧ s.held = none ∧ s.inflight = [] ∧ s.dropped = []

/-! ### Several edges -/

/-- The requests accepted at the next `n` edges, in order. -/
def acceptedDuring : Nat → State → List Instr
  | 0, _ => []
  | n + 1, s =>
    match step s with
    | .next s' =>
      (if acceptsRequest Config.params s then [decode (portsIn s).request] else []) ++ acceptedDuring n s'
    | .fault _ => []
    | .refused _ => []

/-- The next `n` edges have `rst = 0`. -/
abbrev NoReset (n : Nat) (s : State) : Prop := ∀ x ∈ s.drive.take n, x.rst = false

/-- The inputs of a host that takes responses and presents nothing. -/
def PortsIn.taking : PortsIn := ⟨false, false, 0, 0, 0, true⟩

/-- The edges it takes to give every response in flight to a host that takes them (R120). -/
def edgesToDrain (s : State) : Nat := (s.inflight.map fun e => e.wait + 1).sum

end Sys2Proof.Machine
end

