-- ==== Sys2Proof/Certificates/Slice0/Obligations.lean ====
section
/-! DEFINITION. What is claimed of the model: one definition per obligation of OBLIGATIONS.json. -/

open Sys2Proof Sys2Proof.Machine

/-! ### Encodings -/

/-- R38, R39, R43: the number `op × 2^128 + a × 2^64 + b` decodes to the operation `op` selects, and only
a number too wide for `REQ` is rejected. That it is rejected by name is the model's choice (log entry 15). -/
def Obligations.DecodeSelectsByOp : Prop :=
  (∀ a b : Bits64,
    decodeNumber (a.toNat * 2 ^ 64 + b.toNat) = .ok (.add a b) ∧
    decodeNumber (2 ^ 128 + a.toNat * 2 ^ 64 + b.toNat) = .ok (.sub a b) ∧
    decodeNumber (2 * 2 ^ 128 + a.toNat * 2 ^ 64 + b.toNat) = .ok (.mul a b) ∧
    decodeNumber (3 * 2 ^ 128 + a.toNat * 2 ^ 64 + b.toNat) = .ok (.div a b)) ∧
  ∀ n : Nat, 2 ^ 130 ≤ n → decodeNumber n = .error .notARequestWord

/-- Decode and encode agree in both directions, for every request and every word (R38, R39, R49). -/
def Obligations.DecodeEncodeAgree : Prop :=
  (∀ i : Instr, decode (encode i) = i) ∧ ∀ w : RequestWord, encode (decode w) = w

/-- The four words E1 to E4 of the spec's table, each decoded and encoded. -/
def Obligations.SpecWordsDecode : Prop :=
  decode 0x03FF00000000000004000000000000000#130 = .add 0x3FF0000000000000#64 0x4000000000000000#64 ∧
  decode 0x13FF00000000000004000000000000000#130 = .sub 0x3FF0000000000000#64 0x4000000000000000#64 ∧
  decode 0x23FF00000000000004000000000000000#130 = .mul 0x3FF0000000000000#64 0x4000000000000000#64 ∧
  decode 0x33FF00000000000004000000000000000#130 = .div 0x3FF0000000000000#64 0x4000000000000000#64 ∧
  encode (.div 0x3FF0000000000000#64 0x4000000000000000#64) = 0x33FF00000000000004000000000000000#130

/-- R44, R45, R47: the code and argument of each tag, where its slot stands, that the other slots are zero,
and how the response word is put together. -/
def Obligations.ResponseWordLayout : Prop :=
  ((tagSlot .align).toNat = 0 ∧ (tagSlot .add).toNat = 64 ∧ (tagSlot .subAB).toNat = 128 ∧
    (tagSlot .subBA).toNat = 192 ∧ (tagSlot .roundCarry).toNat = 384 ∧ (tagSlot .roundKeep).toNat = 448 ∧
    ∀ n, n < 64 → (tagSlot (.normalizeLeft n)).toNat = 256 + n ∧
      (tagSlot (.normalizeRight n)).toNat = 320 + n) ∧
  ∀ r : Response, r.tags.length ≤ 5 →
    (∀ (i : Nat) (h : i < r.tags.length),
      (packSlots r.tags).extractLsb' (9 * i) 9 = tagSlot (r.tags[i]'h)) ∧
    (∀ i, r.tags.length ≤ i → i < 5 → (packSlots r.tags).extractLsb' (9 * i) 9 = 0#9) ∧
    (encodeResponse r).toNat =
      r.result.toNat * 2 ^ 48 + r.tags.length * 2 ^ 45 + (packSlots r.tags).toNat

/-- The host reads back every response the unit can produce, and reads nothing else as one. That the reader
rejects other words is the model's choice (log entry 16). -/
def Obligations.ResponseCodecAgrees : Prop :=
  (∀ r : Response, r.wellFormed = true → decodeResponse (encodeResponse r) = .ok r) ∧
  ∀ (w : ResponseWord) (r : Response), decodeResponse w = .ok r →
    r.wellFormed = true ∧ encodeResponse r = w

/-- R40: the text form is 64 characters, character `i` is bit `63 - i`, and it is the one text that reads
as the pattern. -/
def Obligations.TextFormOfPattern : Prop :=
  ∀ p : Bits64, (patternText p).length = 64 ∧
    (∀ i, i < 64 → (patternText p)[i]? = some (if p.getLsbD (63 - i) then '1' else '0')) ∧
    ∀ cs : List Char, parsePattern cs = .ok p ↔ cs = patternText p

/-- R48: a request written with hexadecimal or binary operands is read as that request, and assembles to
its one request word. The exact spacing is the model's reading (log entry 13). -/
def Obligations.AssemblerReadsRequests : Prop :=
  ∀ (op : BitVec 2) (a b : Bits64) (v : HostValues),
    parseRequest (hexRequestText op a b) = .ok ⟨op, .pattern a, .pattern b⟩ ∧
    parseRequest (binaryRequestText op a b) = .ok ⟨op, .pattern a, .pattern b⟩ ∧
    assemble v ⟨op, .pattern a, .pattern b⟩ = .ok (encode (selectOp op a b))

/-! ### Operands and constants -/

/-- R50: what `unpack` gives, by the fields of the pattern. -/
def Obligations.UnpackByFields : Prop :=
  ∀ p : Bits64,
    (IsNaN p → unpack p = .nan (signBit p)) ∧
    (IsInf p → unpack p = .infinity (signBit p)) ∧
    (p.extractLsb' 52 11 = 0#11 →
      unpack p = .finite (signBit p) (-1022) (p.extractLsb' 0 52).toNat true) ∧
    (p.extractLsb' 52 11 ≠ 0x7FF#11 → p.extractLsb' 52 11 ≠ 0#11 →
      unpack p = .finite (signBit p) ((p.extractLsb' 52 11).toNat - 1023)
        (2 ^ 52 + (p.extractLsb' 0 52).toNat) false)

/-- R51: exactly one of the four classes holds, and the unpacked value's flags say which. -/
def Obligations.ExactlyOneClass : Prop :=
  ∀ p : Bits64,
    ((unpack p).isNaN = true ↔ IsNaN p) ∧ ((unpack p).isInf = true ↔ IsInf p) ∧
    ((unpack p).isZero = true ↔ IsZero p) ∧ ((unpack p).isFiniteNonzero = true ↔ IsFiniteNonzero p) ∧
    [(unpack p).isNaN, (unpack p).isInf, (unpack p).isZero, (unpack p).isFiniteNonzero].count true = 1

/-- R12: the value of a pattern, in units of `2^-1074`. -/
def Obligations.ValueOfPattern : Prop :=
  ∀ p : Bits64,
    (1 ≤ (p.extractLsb' 52 11).toNat → (p.extractLsb' 52 11).toNat ≤ 2046 →
      units p = some ((if signBit p then (-1 : Int) else 1) *
        ((2 ^ 52 + (p.extractLsb' 0 52).toNat : Nat) * 2 ^ ((p.extractLsb' 52 11).toNat - 1)))) ∧
    (p.extractLsb' 52 11 = 0#11 →
      units p = some ((if signBit p then (-1 : Int) else 1) * ((p.extractLsb' 0 52).toNat : Int))) ∧
    (p.extractLsb' 52 11 = 0x7FF#11 → units p = none)

/-- R55: the constant patterns, at every legal `NAN_MAG`; and the spec's default. -/
def Obligations.ConstantPatterns : Prop :=
  (∀ s : Sign, (zeroPattern s).toNat = s.toNat * 2 ^ 63 ∧
    (infPattern s).toNat = s.toNat * 2 ^ 63 + 0x7FF0000000000000) ∧
  (∀ (p : Params) (s : Sign), (nanPattern p s).toNat = s.toNat * 2 ^ 63 + p.nanMag.toNat ∧
    IsNaN (nanPattern p s) ∧ signBit (nanPattern p s) = s) ∧
  nanPattern Params.default false = 0x7FF8000000000000#64

/-- R82: `widen` brings the significand of every finite nonzero pattern into `[2^52, 2^53)` and keeps its
value. -/
def Obligations.WidenNormalises : Prop :=
  ∀ (p : Bits64) (s : Sign) (e : Int) (m : Nat) (sub : Bool),
    unpack p = .finite s e m sub → ¬ IsZero p →
    2 ^ 52 ≤ (widen m e).significand ∧ (widen m e).significand < 2 ^ 53 ∧
    -1074 ≤ (widen m e).exponent ∧ (widen m e).exponent ≤ 1023 ∧
    ∃ t : Nat, (widen m e).significand = m * 2 ^ t ∧ (widen m e).exponent = e - t ∧
      (2 ^ 52 ≤ m → t = 0)

/-! ### The Aligner and pack -/

/-- R54 (a) to (d). -/
def Obligations.SrsLaws : Prop :=
  ∀ m j k : Nat,
    (1 ≤ k → srs m k >>> 1 = m >>> (k + 1)) ∧
    (srs m k = 0 ↔ m = 0) ∧
    ((srs m k).testBit 0 = (m.testBit k || decide (m % 2 ^ k ≠ 0))) ∧
    srs (srs m j) k = srs m (j + k)

/-- R57: a zero main value packs to the signed zero, whatever the GRS bits, with no tag. -/
def Obligations.PackOfZeroMain : Prop :=
  ∀ (s : Sign) (e : Int) (m : Nat), m < 8 → pack s e m = ⟨zeroPattern s, []⟩

/-- R58: the normalising shift, its tag, and where it leaves the significand. -/
def Obligations.NormaliseToBit55 : Prop :=
  ∀ (e : Int) (m : Nat), 8 ≤ m →
    2 ^ 55 ≤ (normalise e m).significand ∧ (normalise e m).significand < 2 ^ 56 ∧
    (normalise e m).exponent = e + ((msb m : Int) - 55) ∧
    (∀ sh, msb m = 55 + sh → 0 < sh →
      (normalise e m).significand = srs m sh ∧ (normalise e m).tags = [.normalizeRight sh]) ∧
    (∀ sh, msb m + sh = 55 → 0 < sh →
      (normalise e m).significand = m * 2 ^ sh ∧ (normalise e m).tags = [.normalizeLeft sh]) ∧
    (msb m = 55 → (normalise e m).significand = m ∧ (normalise e m).tags = [])

/-- R58 to R62: pack rounds `m` to the nearest 53-bit value, a tie to the even one; then it gives an infinity,
a normal pattern or the underflow path, by the exponent after the carry. -/
def Obligations.PackRoundsToNearestEven : Prop :=
  ∀ (s : Sign) (e : Int) (m : Nat), 8 ≤ m →
    ∃ (q main : Nat) (e' : Int),
      2 ^ 52 ≤ q ∧ q ≤ 2 ^ 53 ∧
      (msb m < 52 → q = m * 2 ^ (52 - msb m)) ∧
      (52 ≤ msb m →
        2 * |(q * 2 ^ (msb m - 52) : Int) - m| ≤ 2 ^ (msb m - 52) ∧
        (2 * |(q * 2 ^ (msb m - 52) : Int) - m| = 2 ^ (msb m - 52) → q % 2 = 0)) ∧
      (if q = 2 ^ 53 then main = 2 ^ 52 ∧ e' = e + msb m - 55 + 1
        else main = q ∧ e' = e + msb m - 55) ∧
      (1024 ≤ e' → (pack s e m).result = infPattern s) ∧
      (-1022 ≤ e' → e' ≤ 1023 → (pack s e m).result.toNat =
        s.toNat * 2 ^ 63 + (e' + 1023).toNat * 2 ^ 52 + (main - 2 ^ 52)) ∧
      (e' < -1022 → (pack s e m).result = (packSubnormal s main (-1022 - e').toNat).result)

/-- R63: the second rounding, on the bits of the rounded main value alone; its flush to zero at `k >= 53`;
and the carry to `2^52`, which gives the smallest normal number. -/
def Obligations.UnderflowRoundsAgain : Prop :=
  ∀ (s : Sign) (main k : Nat), 2 ^ 52 ≤ main → main < 2 ^ 53 → 1 ≤ k →
    (53 ≤ k → packSubnormal s main k = ⟨zeroPattern s, []⟩) ∧
    (k ≤ 52 → ∃ f : Nat, f ≤ 2 ^ 52 ∧
      (packSubnormal s main k).result.toNat = s.toNat * 2 ^ 63 + f ∧
      2 * |(f * 2 ^ k : Int) - main| ≤ 2 ^ k ∧
      (2 * |(f * 2 ^ k : Int) - main| = 2 ^ k → f % 2 = 0) ∧
      (packSubnormal s main k).tags = [if f = main / 2 ^ k then .roundKeep else .roundCarry])

/-- R61, R63: a value of at least `2^1024` packs to an infinity, one below `2^-1075` to a zero. -/
def Obligations.PackRangeLimits : Prop :=
  ∀ (s : Sign) (e : Int) (m : Nat), 8 ≤ m →
    (1024 ≤ e + msb m - 55 → (pack s e m).result = infPattern s) ∧
    (e + msb m - 55 ≤ -1076 → (pack s e m).result = zeroPattern s)

/-- R64: unpack then pack gives back every finite pattern, with the tags the rule names. -/
def Obligations.UnpackPackRoundTrip : Prop :=
  ∀ (p : Bits64) (s : Sign) (e : Int) (m : Nat) (sub : Bool), unpack p = .finite s e m sub →
    pack s e (m <<< 3) = ⟨p,
      if IsZero p then []
      else if p.extractLsb' 52 11 = 0#11 then
        [.normalizeLeft (52 - msb (p.extractLsb' 0 52).toNat), .roundKeep, .roundKeep]
      else [.roundKeep]⟩

/-! ### Completion, frame and independence -/

/-- Every request, in every state, completes: its own response joins the tail of the queue, and every other
field of the state is as it was (R22, R26). How long it will wait at the head is free (log entry 2). -/
def Obligations.EveryRequestCompletes : Prop :=
  ∀ (a b : Bits64) (s : State),
    exec (.add a b) s = .next { s with inflight := s.inflight ++
      [⟨.add a b, addSub Config.params a b false, Config.latency s.edges (.add a b)⟩] } ∧
    exec (.sub a b) s = .next { s with inflight := s.inflight ++
      [⟨.sub a b, addSub Config.params a b true, Config.latency s.edges (.sub a b)⟩] } ∧
    exec (.mul a b) s = .next { s with inflight := s.inflight ++
      [⟨.mul a b, mulResponse Config.params a b, Config.latency s.edges (.mul a b)⟩] } ∧
    exec (.div a b) s = .next { s with inflight := s.inflight ++
      [⟨.div a b, divResponse Config.params a b, Config.latency s.edges (.div a b)⟩] }

/-- The frame of all four operations: nothing but the tail of the queue changes. -/
def Obligations.ExecFrame : Prop :=
  ∀ (i : Instr) (s t : State), exec i s = .next t →
    t.drive = s.drive ∧ t.held = s.held ∧ t.answered = s.answered ∧ t.dropped = s.dropped ∧
    t.edges = s.edges ∧ ∃ e : Entry, t.inflight = s.inflight ++ [e] ∧ e.request = i

/-- The response to a request depends on no state: not on other requests, its place in the queue, or time
(R26, R34, R114). -/
def Obligations.ResponseIndependentOfState : Prop :=
  ∀ i : Instr, ∃ r : Response, ∀ s : State, ∃ w : Nat,
    exec i s = .next { s with inflight := s.inflight ++ [⟨i, r, w⟩] }

/-- R46: the step list of every response has at most five tags, in their order, with arguments in range. -/
def Obligations.StepListsWellFormed : Prop :=
  ∀ (i : Instr) (s : State), ∃ r : Response, Answers i r s ∧ r.wellFormed = true ∧ r.tags.length ≤ 5

/-! ### ADD and SUB -/

/-- R72, R73: the special cases of ADD and SUB, none of which emits a tag. -/
def Obligations.AddSubSpecials : Prop :=
  ∀ (subtract : Bool) (a b : Bits64) (s : State),
    let i := addSubInstr subtract a b
    let b' := effectiveB subtract b
    (IsNaN a ∨ IsNaN b → Answers i ⟨nanPattern Config.params false, []⟩ s) ∧
    (IsInf a → IsInf b → signBit a = signBit b' → Answers i ⟨infPattern (signBit a), []⟩ s) ∧
    (IsInf a → IsInf b → signBit a ≠ signBit b' → Answers i ⟨nanPattern Config.params false, []⟩ s) ∧
    (IsInf a → IsFinite b → Answers i ⟨infPattern (signBit a), []⟩ s) ∧
    (IsFinite a → IsInf b → Answers i ⟨infPattern (signBit b'), []⟩ s) ∧
    (IsZero a → IsFiniteNonzero b → Answers i ⟨b', []⟩ s) ∧
    (IsFiniteNonzero a → IsZero b → Answers i ⟨a, []⟩ s) ∧
    (IsZero a → IsZero b →
      Answers i ⟨match Config.zeroOrder with | .aFirst => b' | .bFirst => a, []⟩ s)

/-- R71: SUB is ADD of B with its sign flipped, result and tags. -/
def Obligations.SubFlipsThenAdds : Prop :=
  ∀ a b : Bits64, ∃ r : Response, ∀ s : State,
    Answers (.sub a b) r s ∧ Answers (.add a (flipSign b)) r s

/-- R77: equal magnitudes of opposite sign give `+0`, whatever the signs, with no tag. -/
def Obligations.ExactCancellation : Prop :=
  ∀ (subtract : Bool) (a b : Bits64) (s : State), IsFiniteNonzero a →
    effectiveB subtract b = flipSign a →
    Answers (addSubInstr subtract a b) ⟨0x0000000000000000#64, []⟩ s

/-- R77: `±2^k` less its neighbour toward zero gives a zero of the larger operand's sign, with the tags
emitted before pack and no other. -/
def Obligations.CancellationBelowUnit : Prop :=
  ∀ (x : Bits64) (s : State), 2 ≤ (x.extractLsb' 52 11).toNat → IsFinite x → x.extractLsb' 0 52 = 0#52 →
    Answers (.sub x (x - 1#64)) ⟨zeroPattern (signBit x), [.align, .subAB]⟩ s ∧
    Answers (.sub (x - 1#64) x) ⟨zeroPattern (!signBit x), [.align, .subBA]⟩ s

/-- R77: a sum of finite nonzero operands is a zero exactly on exact cancellation and on the cancellation
below one unit. -/
def Obligations.SumIsZeroExactlyWhen : Prop :=
  ∀ (subtract : Bool) (a b : Bits64) (s : State), IsFiniteNonzero a → IsFiniteNonzero b →
    ∃ r : Response, Answers (addSubInstr subtract a b) r s ∧
      (IsZero r.result ↔
        effectiveB subtract b = flipSign a ∨ CancelsBelowUnit a (effectiveB subtract b))

/-- R75: for finite nonzero operands the first tag is `align` exactly when the exponents differ. -/
def Obligations.AlignTagIffExponentsDiffer : Prop :=
  ∀ (subtract : Bool) (a b : Bits64) (s : State), IsFiniteNonzero a → IsFiniteNonzero b →
    ∃ r : Response, Answers (addSubInstr subtract a b) r s ∧
      (r.tags.head? = some .align ↔
        max 1 (a.extractLsb' 52 11).toNat ≠ max 1 (b.extractLsb' 52 11).toNat)

/-- R74 to R76: the arithmetic of ADD and SUB on finite nonzero operands. The operand of the smaller exponent
goes through the Aligner; equal signs add, and otherwise the smaller aligned magnitude is subtracted from
the larger and the result has the larger operand's sign. -/
def Obligations.AddSubArithmetic : Prop :=
  ∀ (subtract : Bool) (a b : Bits64) (s : State) (sA sB : Sign) (eA eB : Int) (mA mB : Nat)
      (subA subB : Bool), IsFiniteNonzero a → IsFiniteNonzero b →
    unpack a = .finite sA eA mA subA → unpack (effectiveB subtract b) = .finite sB eB mB subB →
    let i := addSubInstr subtract a b
    let x := if eA < eB then srs (mA * 8) (eB - eA).toNat else mA * 8
    let y := if eB < eA then srs (mB * 8) (eA - eB).toNat else mB * 8
    let al : List Tag := if eA = eB then [] else [.align]
    x + y < 2 ^ 57 ∧
    (sA = sB → Answers i
      ⟨(pack sA (max eA eB) (x + y)).result, al ++ .add :: (pack sA (max eA eB) (x + y)).tags⟩ s) ∧
    (sA ≠ sB → y < x → Answers i
      ⟨(pack sA (max eA eB) (x - y)).result, al ++ .subAB :: (pack sA (max eA eB) (x - y)).tags⟩ s) ∧
    (sA ≠ sB → x < y → Answers i
      ⟨(pack sB (max eA eB) (y - x)).result, al ++ .subBA :: (pack sB (max eA eB) (y - x)).tags⟩ s) ∧
    (sA ≠ sB → x = y → Answers i ⟨zeroPattern false, []⟩ s)

/-- ADD is commutative in its result, except for two zeros, and in its tags up to the names of the operands. -/
def Obligations.AddCommutes : Prop :=
  ∀ (a b : Bits64) (s : State), ¬ (IsZero a ∧ IsZero b) →
    ∃ r r' : Response, Answers (.add a b) r s ∧ Answers (.add b a) r' s ∧ r'.result = r.result ∧
      r'.tags = r.tags.map fun t => match t with
        | .subAB => .subBA
        | .subBA => .subAB
        | .align => .align
        | .add => .add
        | .normalizeLeft n => .normalizeLeft n
        | .normalizeRight n => .normalizeRight n
        | .roundCarry => .roundCarry
        | .roundKeep => .roundKeep

/-- R79: a sum of at most `2^53` units of `2^-1074` is exact, but for the cancellation below one unit. -/
def Obligations.SmallSumsAreExact : Prop :=
  ∀ (subtract : Bool) (a b : Bits64) (s : State) (ua ub : Int), IsFiniteNonzero a → IsFiniteNonzero b →
    units a = some ua → units (effectiveB subtract b) = some ub → |ua + ub| ≤ 2 ^ 53 →
    ¬ CancelsBelowUnit a (effectiveB subtract b) →
    ∃ r : Response, Answers (addSubInstr subtract a b) r s ∧ units r.result = some (ua + ub)

/-- R79: but for the cancellation below one unit, a sum of finite nonzero operands is the binary64 value
nearest to the exact sum, a tie going to the even pattern; from `2^1024 - 2^970` on it is the infinity. -/
def Obligations.AddSubIsNearest : Prop :=
  ∀ (subtract : Bool) (a b : Bits64) (s : State) (ua ub : Int), IsFiniteNonzero a → IsFiniteNonzero b →
    units a = some ua → units (effectiveB subtract b) = some ub →
    ¬ CancelsBelowUnit a (effectiveB subtract b) →
    ∃ r : Response, Answers (addSubInstr subtract a b) r s ∧
      (|ua + ub| < 2 ^ 2098 - 2 ^ 2044 → IsNearest r.result (ua + ub) 1) ∧
      (2 ^ 2098 - 2 ^ 2044 ≤ |ua + ub| → r.result = infPattern (decide (ua + ub < 0)))

/-! ### MUL and DIV -/

/-- R81: the special cases of MUL, the sign the XOR of the operand signs, with no tag. -/
def Obligations.MulSpecials : Prop :=
  ∀ (a b : Bits64) (s : State),
    let x := signBit a ^^ signBit b
    (IsNaN a ∨ IsNaN b → Answers (.mul a b) ⟨nanPattern Config.params x, []⟩ s) ∧
    ((IsZero a ∧ IsInf b) ∨ (IsInf a ∧ IsZero b) →
      Answers (.mul a b) ⟨nanPattern Config.params x, []⟩ s) ∧
    (IsInf a → IsInf b → Answers (.mul a b) ⟨infPattern x, []⟩ s) ∧
    ((IsInf a ∧ IsFiniteNonzero b) ∨ (IsFiniteNonzero a ∧ IsInf b) →
      Answers (.mul a b) ⟨infPattern x, []⟩ s) ∧
    ((IsZero a ∧ IsFinite b) ∨ (IsFinite a ∧ IsZero b) → Answers (.mul a b) ⟨zeroPattern x, []⟩ s)

/-- R91: the special cases of DIV, the sign the XOR of the operand signs, with no tag. -/
def Obligations.DivSpecials : Prop :=
  ∀ (a b : Bits64) (s : State),
    let x := signBit a ^^ signBit b
    (IsNaN a ∨ IsNaN b → Answers (.div a b) ⟨nanPattern Config.params x, []⟩ s) ∧
    (IsInf a → IsInf b → Answers (.div a b) ⟨nanPattern Config.params x, []⟩ s) ∧
    (IsZero a → IsZero b → Answers (.div a b) ⟨nanPattern Config.params x, []⟩ s) ∧
    (IsInf a → IsFinite b → Answers (.div a b) ⟨infPattern x, []⟩ s) ∧
    (IsFinite a → IsInf b → Answers (.div a b) ⟨zeroPattern x, []⟩ s) ∧
    (IsFiniteNonzero a → IsZero b → Answers (.div a b) ⟨infPattern x, []⟩ s) ∧
    (IsZero a → IsFiniteNonzero b → Answers (.div a b) ⟨zeroPattern x, []⟩ s)

/-- The result sign of MUL and DIV is the XOR of the operand signs on every path (R80, R90, C9). -/
def Obligations.MulDivSignIsXor : Prop :=
  ∀ (a b : Bits64) (s : State),
    (∃ r, Answers (.mul a b) r s ∧ signBit r.result = (signBit a ^^ signBit b)) ∧
    (∃ r, Answers (.div a b) r s ∧ signBit r.result = (signBit a ^^ signBit b))

/-- R83: MUL packs the exact product of the widened significands, which has 105 or 106 bits; the tags are
`normalize:right(49)` or `(50)` and then one or two round tags. -/
def Obligations.MulArithmetic : Prop :=
  ∀ (a b : Bits64) (s : State) (sA sB : Sign) (eA eB : Int) (mA mB : Nat) (subA subB : Bool),
    IsFiniteNonzero a → IsFiniteNonzero b →
    unpack a = .finite sA eA mA subA → unpack b = .finite sB eB mB subB →
    let A := widen mA eA
    let B := widen mB eB
    let r := pack (sA ^^ sB) (A.exponent + B.exponent - 49) (A.significand * B.significand)
    2 ^ 104 ≤ A.significand * B.significand ∧ A.significand * B.significand < 2 ^ 106 ∧
    Answers (.mul a b) r s ∧
    ∃ n rest, r.tags = .normalizeRight n :: rest ∧ (n = 49 ∨ n = 50) ∧
      (rest.length = 1 ∨ rest.length = 2) ∧ ∀ t ∈ rest, t = .roundCarry ∨ t = .roundKeep

/-- R92, R93: DIV packs the 59-bit-shifted quotient, a nonzero remainder folded into its lowest bit; the
quotient lies between `2^58` and `2^60`, and the tags are `normalize:right(3)` or `(4)` and then one or
two round tags. -/
def Obligations.DivArithmetic : Prop :=
  ∀ (a b : Bits64) (s : State) (sA sB : Sign) (eA eB : Int) (mA mB : Nat) (subA subB : Bool),
    IsFiniteNonzero a → IsFiniteNonzero b →
    unpack a = .finite sA eA mA subA → unpack b = .finite sB eB mB subB →
    let A := widen mA eA
    let B := widen mB eB
    let N := A.significand * 2 ^ 59
    let Q := N / B.significand
    let m := if N % B.significand = 0 then Q else Q ||| 1
    let r := pack (sA ^^ sB) (A.exponent - B.exponent - 4) m
    N < 2 ^ 112 ∧ 2 ^ 58 < Q ∧ Q < 2 ^ 60 ∧
    Answers (.div a b) r s ∧
    ∃ n rest, r.tags = .normalizeRight n :: rest ∧ (n = 3 ∨ n = 4) ∧
      (rest.length = 1 ∨ rest.length = 2) ∧ ∀ t ∈ rest, t = .roundCarry ∨ t = .roundKeep

/-- MUL is commutative, result and tags. -/
def Obligations.MulCommutes : Prop :=
  ∀ a b : Bits64, ∃ r : Response, ∀ s : State, Answers (.mul a b) r s ∧ Answers (.mul b a) r s

/-- `DIV X, X` is `+1.0` for every finite nonzero X, and a NaN of sign 0 for every other X (R90). -/
def Obligations.DivBySelf : Prop :=
  ∀ (x : Bits64) (s : State),
    (IsFiniteNonzero x →
      Answers (.div x x) ⟨0x3FF0000000000000#64, [.normalizeRight 4, .roundKeep]⟩ s) ∧
    (¬ IsFiniteNonzero x → Answers (.div x x) ⟨nanPattern Config.params false, []⟩ s)

/-- R85: a product of magnitude at least `2^-1022` is the binary64 value nearest to the exact product, a tie
going to the even pattern; from `2^1024 - 2^970` on it is the infinity. -/
def Obligations.MulIsNearest : Prop :=
  ∀ (a b : Bits64) (s : State) (ua ub : Int), IsFiniteNonzero a → IsFiniteNonzero b →
    units a = some ua → units b = some ub → 2 ^ 52 * 2 ^ 1074 ≤ |ua * ub| →
    ∃ r : Response, Answers (.mul a b) r s ∧
      (|ua * ub| < (2 ^ 2098 - 2 ^ 2044) * 2 ^ 1074 → IsNearest r.result (ua * ub) (2 ^ 1074)) ∧
      ((2 ^ 2098 - 2 ^ 2044) * 2 ^ 1074 ≤ |ua * ub| →
        r.result = infPattern (signBit a ^^ signBit b))

/-- R95: a quotient of magnitude at least `2^-1022` is the binary64 value nearest to the exact quotient, a
tie going to the even pattern; from `2^1024 - 2^970` on it is the infinity. -/
def Obligations.DivIsNearest : Prop :=
  ∀ (a b : Bits64) (s : State) (ua ub : Int), IsFiniteNonzero a → IsFiniteNonzero b →
    units a = some ua → units b = some ub → 2 ^ 52 * |ub| ≤ |ua| * 2 ^ 1074 →
    ∃ r : Response, Answers (.div a b) r s ∧
      (|ua| * 2 ^ 1074 < (2 ^ 2098 - 2 ^ 2044) * |ub| →
        IsNearest r.result (ua * ub.sign * 2 ^ 1074) |ub|) ∧
      ((2 ^ 2098 - 2 ^ 2044) * |ub| ≤ |ua| * 2 ^ 1074 →
        r.result = infPattern (signBit a ^^ signBit b))

/-! ### The clock edge -/

/-- R27: nothing is in flight after reset, `req_ready = 1` and `rsp_valid = 0`. -/
def Obligations.ResetValues : Prop :=
  State.reset.inflight = [] ∧ reqReady Config.params State.reset = true ∧ rspValid State.reset = false

/-- R112: an edge with `rst = 1` empties the queue and drops what was in it; nothing is accepted and nothing
taken, a response taken before is unaffected, and `req_ready = 1`, `rsp_valid = 0` afterwards. -/
def Obligations.ResetEdgeDropsAll : Prop :=
  ∀ s : State, (portsIn s).rst = true →
    ∃ t, step s = .next t ∧ t.inflight = [] ∧ t.answered = s.answered ∧
      t.dropped = s.dropped ++ s.inflight.map Entry.request ∧
      reqReady Config.params t = true ∧ rspValid t = false

/-- A step at an edge that accepts a request runs the decoded request, on the state that the rest of the edge
leaves (R21, R23, R26). That an edge lowers the waiting head's free wait is the model's choice (log
entry 2), and so is the list of inputs (log entry 1). -/
def Obligations.StepRunsAcceptedRequest : Prop :=
  ∀ s : State, (portsIn s).rst = false → HostHolds s → (portsIn s).reqValid = true →
    s.inflight.length < Config.params.depth →
    ∃ t : State, step s = exec (decode (portsIn s).request) t ∧
      t.drive = s.drive.tail ∧ t.held = none ∧ t.dropped = s.dropped ∧ t.edges = s.edges + 1 ∧
      t.inflight = (if rspValid s = true ∧ (portsIn s).rspReady = true then s.inflight.tail
        else tickHead s.inflight) ∧
      t.answered = (if rspValid s = true ∧ (portsIn s).rspReady = true then
          s.answered ++ (s.inflight.take 1).map (fun e => (e.request, e.response))
        else s.answered)

/-- The host's way of driving one request makes the very next step run it, and changes nothing the host
has received or has yet to drive. `withFetchWord` is the model's choice (log entry 11). -/
def Obligations.FetchWordRunsNext : Prop :=
  ∀ (s : State) (nbits w : Nat) (i : Instr), decodeTableWord nbits w = some i →
    ∃ t : State, step (s.withFetchWord nbits w) = exec i t ∧ t.drive = s.drive ∧
      t.answered = s.answered ∧ t.dropped = s.dropped ∧
      (s.inflight.length < Config.params.depth → t.inflight = tickHead s.inflight)

/-- R22: with `DEPTH` requests in flight `req_ready = 0` and a presented request is not accepted; the host
must hold it. -/
def Obligations.FullQueueAcceptsNothing : Prop :=
  ∀ s : State, (portsIn s).rst = false → HostHolds s → Config.params.depth ≤ s.inflight.length →
    reqReady Config.params s = false ∧
    ∃ t, step s = .next t ∧ t.inflight.length ≤ s.inflight.length ∧
      t.inflight.map Entry.request <:+ s.inflight.map Entry.request ∧
      t.held = (if (portsIn s).reqValid = true then some (portsIn s).request else none)

/-- R23: taking the presented response removes the head of the queue and gives the host exactly that
response; a request accepted at the same edge joins the tail. -/
def Obligations.TakingRemovesHead : Prop :=
  ∀ (s : State) (e : Entry) (es : List Entry), s.inflight = e :: es → e.wait = 0 →
    (portsIn s).rst = false → (portsIn s).rspReady = true → HostHolds s →
    ∃ t, step s = .next t ∧ t.answered = s.answered ++ [(e.request, e.response)] ∧
      t.dropped = s.dropped ∧
      t.inflight.map (fun x => (x.request, x.response)) =
        es.map (fun x => (x.request, x.response)) ++
        (if (portsIn s).reqValid = true ∧ s.inflight.length < Config.params.depth then
          [(decode (portsIn s).request, respond Config.params (decode (portsIn s).request))]
        else [])

/-- R23: while a response is presented and not taken, `rsp_valid` stays 1 and the response ports do not
change. -/
def Obligations.PresentedResponseIsHeld : Prop :=
  ∀ s : State, rspValid s = true → (portsIn s).rst = false → (portsIn s).rspReady = false → HostHolds s →
    ∃ t, step s = .next t ∧ rspValid t = true ∧
      responsePort Config.params t = responsePort Config.params s ∧ t.answered = s.answered

/-- The presented response is the head's, word for word (R23, R26). -/
def Obligations.PortsShowHeadResponse : Prop :=
  ∀ (p : Params) (s : State), Invariant p s → rspValid s = true →
    ∃ e es, s.inflight = e :: es ∧ responsePort p s = encodeResponse (respond p e.request)

/-- A step never faults (R100), and it is refused exactly when the host changed a request it must hold
(R21, R28). That such an edge is refused is the model's choice (log entry 8). -/
def Obligations.StepStopsOnlyOnBrokenHold : Prop :=
  ∀ s : State, (∀ f, step s ≠ .fault f) ∧
    ∀ r, step s = .refused r ↔
      r = .hostChangedHeldRequest ∧ (portsIn s).rst = false ∧ (portsIn s).reqValid = true ∧
        ∃ w, s.held = some w ∧ packRequest (portsIn s).op (portsIn s).a (portsIn s).b ≠ w

/-! ### Every edge, and many edges -/

/-- The invariant holds right after reset. That the host has then received nothing is the model's choice
(log entry 10). -/
def Obligations.ResetMeetsInvariant : Prop := Invariant Config.params State.reset

/-- Every edge keeps the invariant: the queue's bound, and that every response in flight or received is the
response to its own request (R22, R26). -/
def Obligations.StepKeepsInvariant : Prop :=
  ∀ s t : State, Invariant Config.params s → step s = .next t → Invariant Config.params t

/-- Over any number of edges without reset, the requests answered and in flight are those that were there
and then those accepted, in order, each once; and no response is taken back (R25). -/
def Obligations.ResponsesInAcceptanceOrder : Prop :=
  ∀ (n : Nat) (s t : State), NoReset n s → Host.Core.run Sys2Proof.core n s = .next t →
    history t = history s ++ acceptedDuring n s ∧ s.answered <+: t.answered

/-- A host that takes responses gets every response in flight, in order, in a number of edges that the waits
of the queue bound; if no request was dropped, the run has then ended (R119, R120). The waits are free values (log entry 2). -/
def Obligations.QueueDrains : Prop :=
  ∀ s : State, s.drive = List.replicate (edgesToDrain s) PortsIn.taking →
    ∃ t, Host.Core.run Sys2Proof.core (edgesToDrain s) s = .next t ∧
      t.inflight = [] ∧ t.drive = [] ∧ t.dropped = s.dropped ∧
      t.answered = s.answered ++ s.inflight.map (fun e => (e.request, e.response)) ∧
      (s.inflight ≠ [] → s.dropped = [] → RunEnded t)
end

