-- ==== Sys2Proof/Laws/Codec.lean ====
section
/-! SUPPORT. The small facts about patterns, the Aligner and the Rounder that proofs cite. -/

namespace Sys2Proof.Machine

/-! ### Patterns -/

theorem withSign_toNat (s : Sign) (m : BitVec 63) :
    (withSign s m).toNat = s.toNat * 2 ^ 63 + m.toNat := by
  have h := m.isLt
  rw [withSign, BitVec.toNat_append, BitVec.toNat_ofBool, Nat.shiftLeft_eq]
  rw [Nat.mul_comm, ← Nat.two_pow_add_eq_or_of_lt h]

@[simp] theorem signField_withSign (s : Sign) (m : BitVec 63) : signField (withSign s m) = s := by
  rw [signField, withSign, BitVec.getLsbD_append]
  cases s <;> simp

@[simp] theorem magnitudeField_withSign (s : Sign) (m : BitVec 63) :
    magnitudeField (withSign s m) = m := by
  apply BitVec.eq_of_toNat_eq
  have h := m.isLt
  rw [magnitudeField, BitVec.extractLsb'_toNat, withSign_toNat]
  cases s <;> simp <;> omega

/-! ### Responses -/

@[simp] theorem untagged_result (p : Bits64) : (untagged p).result = p := rfl
@[simp] theorem untagged_tags (p : Bits64) : (untagged p).tags = [] := rfl
@[simp] theorem emitBefore_result (ts : List Tag) (r : Response) :
    (emitBefore ts r).result = r.result := rfl
@[simp] theorem emitBefore_tags (ts : List Tag) (r : Response) :
    (emitBefore ts r).tags = ts ++ r.tags := rfl

/-! ### The highest set bit -/

theorem two_pow_msb_le {m : Nat} (h : 0 < m) : 2 ^ msb m ≤ m :=
  Nat.log2_self_le (Nat.pos_iff_ne_zero.1 h)

theorem lt_two_pow_msb_succ (m : Nat) : m < 2 ^ (msb m + 1) := Nat.lt_log2_self

/-! ### The Aligner -/

@[simp] theorem srs_zero (m : Nat) : srs m 0 = m := rfl

/-- A shift that discards only zeros is exact. -/
theorem srs_exact {m k : Nat} (h : m % 2 ^ k = 0) : srs m k = m / 2 ^ k := by
  unfold srs
  by_cases hk : k = 0
  · simp [hk]
  · simp [hk, h, Nat.shiftRight_eq_div_pow]

/-- A shift that discards a one sets the lowest bit. -/
theorem srs_sticky {m k : Nat} (h : m % 2 ^ k ≠ 0) : srs m k = m / 2 ^ k ||| 1 := by
  have hk : k ≠ 0 := by rintro rfl; simp [Nat.mod_one] at h
  simp [srs, hk, h, Nat.shiftRight_eq_div_pow]

/-! ### The Rounder -/

/-- A rounding either keeps its value or adds one, and its tag says which. -/
theorem roundBy_cases (main : Nat) (x : Grs) :
    (roundsUp main x = true ∧ roundBy main x = ⟨main + 1, .roundCarry⟩) ∨
    (roundsUp main x = false ∧ roundBy main x = ⟨main, .roundKeep⟩) := by
  unfold roundBy
  cases roundsUp main x <;> simp

/-- Pack step 6 takes one of three ways, by the exponent. -/
theorem packExponent_cases (s : Sign) (e : Int) (main : Nat) :
    (1024 ≤ e ∧ packExponent s e main = ⟨infPattern s, []⟩) ∨
    (-1022 ≤ e ∧ e ≤ 1023 ∧ packExponent s e main = ⟨normalPattern s (e + 1023).toNat main, []⟩) ∨
    (e ≤ -1023 ∧ packExponent s e main = packSubnormal s main (-1022 - e).toNat) := by
  unfold packExponent
  by_cases h1 : 2047 ≤ e + 1023
  · exact .inl ⟨by omega, by rw [if_pos h1]⟩
  · by_cases h2 : 1 ≤ e + 1023
    · exact .inr (.inl ⟨by omega, by omega, by rw [if_neg h1, if_pos h2]⟩)
    · refine .inr (.inr ⟨by omega, ?_⟩)
      rw [if_neg h1, if_neg h2]
      congr 2
      omega

/-- Pack, once the main value is not zero, in the order of its steps. -/
theorem pack_of_main (s : Sign) (e : Int) (m : Nat) (h : m >>> 3 ≠ 0) :
    pack s e m =
      emitBefore ((normalise e m).tags ++ [(roundMain (normalise e m).significand).tag])
        (packExponent s
          (propagateCarry (normalise e m).exponent (roundMain (normalise e m).significand).main).exponent
          (propagateCarry (normalise e m).exponent (roundMain (normalise e m).significand).main).significand) := by
  simp only [pack, if_neg h]

end Sys2Proof.Machine
end

