-- ==== Sys2Proof/Laws/State.lean ====
section
/-! SUPPORT. One lemma per field per update of the state, so that no proof unfolds a record update. -/

namespace Sys2Proof.Machine

variable (p : Params) (i : Instr) (r : Response) (w : RequestWord) (s : State)

@[simp] theorem enqueue_inflight :
    (enqueue p i r s).inflight = s.inflight ++ [⟨i, r, p.latency s.edges i⟩] := rfl
@[simp] theorem enqueue_drive : (enqueue p i r s).drive = s.drive := rfl
@[simp] theorem enqueue_held : (enqueue p i r s).held = s.held := rfl
@[simp] theorem enqueue_answered : (enqueue p i r s).answered = s.answered := rfl
@[simp] theorem enqueue_dropped : (enqueue p i r s).dropped = s.dropped := rfl
@[simp] theorem enqueue_edges : (enqueue p i r s).edges = s.edges := rfl

@[simp] theorem handshake_inflight : (handshake p s).inflight = queueAfter s := rfl
@[simp] theorem handshake_drive : (handshake p s).drive = s.drive.tail := rfl
@[simp] theorem handshake_held : (handshake p s).held = heldAfter p s := rfl
@[simp] theorem handshake_answered : (handshake p s).answered = answeredAfter s := rfl
@[simp] theorem handshake_dropped : (handshake p s).dropped = s.dropped := rfl
@[simp] theorem handshake_edges : (handshake p s).edges = s.edges + 1 := rfl

@[simp] theorem resetEdge_inflight : (resetEdge s).inflight = [] := rfl
@[simp] theorem resetEdge_drive : (resetEdge s).drive = s.drive.tail := rfl
@[simp] theorem resetEdge_held : (resetEdge s).held = none := rfl
@[simp] theorem resetEdge_answered : (resetEdge s).answered = s.answered := rfl
@[simp] theorem resetEdge_dropped :
    (resetEdge s).dropped = s.dropped ++ s.inflight.map Entry.request := rfl
@[simp] theorem resetEdge_edges : (resetEdge s).edges = s.edges + 1 := rfl

@[simp] theorem presentNext_inflight :
    (presentNext p w s).inflight = if reqReady p s then s.inflight else [] := rfl
@[simp] theorem presentNext_drive :
    (presentNext p w s).drive = PortsIn.ofRequest w :: s.drive := rfl
@[simp] theorem presentNext_held : (presentNext p w s).held = none := rfl
@[simp] theorem presentNext_answered : (presentNext p w s).answered = s.answered := rfl
@[simp] theorem presentNext_dropped : (presentNext p w s).dropped = s.dropped := rfl
@[simp] theorem presentNext_edges : (presentNext p w s).edges = s.edges := rfl

@[simp] theorem reset_inflight : State.reset.inflight = [] := rfl
@[simp] theorem reset_drive : State.reset.drive = [] := rfl
@[simp] theorem reset_held : State.reset.held = none := rfl
@[simp] theorem reset_answered : State.reset.answered = [] := rfl
@[simp] theorem reset_dropped : State.reset.dropped = [] := rfl

end Sys2Proof.Machine
end

