-- ==== Sys2Proof/Laws/Ops.lean ====
section
/-! SUPPORT. What each shared operation over the queue and the ports can do, said once. -/

namespace Sys2Proof.Machine

/-! ### The queue -/

@[simp] theorem tickHead_nil : tickHead [] = [] := rfl
@[simp] theorem tickHead_cons (e : Entry) (es : List Entry) :
    tickHead (e :: es) = ⟨e.request, e.response, e.wait - 1⟩ :: es := rfl

@[simp] theorem tickHead_length (q : List Entry) : (tickHead q).length = q.length := by
  cases q <;> simp

/-- The passing of an edge changes no request and no response. -/
@[simp] theorem tickHead_content (q : List Entry) :
    (tickHead q).map (fun e => (e.request, e.response)) = q.map (fun e => (e.request, e.response)) := by
  cases q <;> simp

@[simp] theorem tickHead_requests (q : List Entry) :
    (tickHead q).map Entry.request = q.map Entry.request := by
  cases q <;> simp

theorem depth_pos (p : Params) : 0 < p.depth := Nat.succ_pos _

theorem reqReady_iff (p : Params) (s : State) :
    reqReady p s = true ↔ s.inflight.length < p.depth := by simp [reqReady]

/-- A response is presented exactly when the head's wait is over. -/
theorem presented_iff (s : State) (r : Response) :
    presented s = some r ↔ ∃ e es, s.inflight = e :: es ∧ e.wait = 0 ∧ e.response = r := by
  unfold presented
  cases h : s.inflight with
  | nil => simp
  | cons e es =>
    by_cases hw : e.wait = 0
    · simp only [hw, if_true, Option.some.injEq, List.cons.injEq]
      constructor
      · intro hr; exact ⟨e, es, ⟨rfl, rfl⟩, hw, hr⟩
      · rintro ⟨e', es', ⟨rfl, -⟩, -, hr⟩; exact hr
    · simp only [hw, if_false]
      constructor
      · intro hr; cases hr
      · rintro ⟨e', es', he, hw', -⟩
        cases he; exact absurd hw' hw

theorem rspValid_iff (s : State) :
    rspValid s = true ↔ ∃ e es, s.inflight = e :: es ∧ e.wait = 0 := by
  rw [rspValid, Option.isSome_iff_exists]
  constructor
  · rintro ⟨r, hr⟩
    obtain ⟨e, es, he, hw, -⟩ := (presented_iff s r).1 hr
    exact ⟨e, es, he, hw⟩
  · rintro ⟨e, es, he, hw⟩
    exact ⟨e.response, (presented_iff s _).2 ⟨e, es, he, hw, rfl⟩⟩

/-- Whether or not a response is taken, what the host has and what is in flight stay, in order, the same
requests and responses. -/
theorem handshake_content (p : Params) (s : State) :
    (handshake p s).answered ++ (handshake p s).inflight.map (fun e => (e.request, e.response)) =
      s.answered ++ s.inflight.map (fun e => (e.request, e.response)) := by
  simp only [handshake_answered, handshake_inflight, answeredAfter, queueAfter]
  by_cases h : takesResponse s
  · simp only [h, if_true]
    cases s.inflight <;> simp
  · simp [h]

theorem queueAfter_length_le (s : State) : (queueAfter s).length ≤ s.inflight.length := by
  unfold queueAfter
  split <;> simp

/-! ### Instructions and edges -/

/-- All four operations do one thing: their response joins the tail of the queue. -/
theorem exec_eq_enqueue (i : Instr) (s : State) :
    exec i s = .next (enqueue Config.params i (respond Config.params i) s) := by
  cases i <;> rfl

/-- What one edge can do, for any effect of an accepted request. -/
theorem clockEdge_cases (p : Params) (perform : Instr → State → Host.Outcome State Fault Refusal)
    (s : State) :
    ((portsIn s).rst = true ∧ clockEdge p perform s = .next (resetEdge s)) ∨
    ((portsIn s).rst = false ∧ holdBroken s = true ∧
      clockEdge p perform s = .refused .hostChangedHeldRequest) ∨
    ((portsIn s).rst = false ∧ holdBroken s = false ∧ acceptsRequest p s = true ∧
      clockEdge p perform s = perform (decode (portsIn s).request) (handshake p s)) ∨
    ((portsIn s).rst = false ∧ holdBroken s = false ∧ acceptsRequest p s = false ∧
      clockEdge p perform s = .next (handshake p s)) := by
  unfold clockEdge
  cases hr : (portsIn s).rst
  · cases hb : holdBroken s
    · cases ha : acceptsRequest p s <;> simp
    · simp
  · simp

/-- A step with `rst = 0` of a host that holds what it must. -/
theorem step_of_held {s : State} (hr : (portsIn s).rst = false) (hb : holdBroken s = false) :
    step s = if acceptsRequest Config.params s = true then
        exec (decode (portsIn s).request) (handshake Config.params s)
      else .next (handshake Config.params s) := by
  simp [step, clockEdge, hr, hb]

/-- A step that answers a next state was a reset edge, an edge that accepted a request, or an edge that
accepted none. -/
theorem step_next_cases {s t : State} (h : step s = .next t) :
    ((portsIn s).rst = true ∧ t = resetEdge s) ∨
    ((portsIn s).rst = false ∧ acceptsRequest Config.params s = true ∧
      t = enqueue Config.params (decode (portsIn s).request)
        (respond Config.params (decode (portsIn s).request)) (handshake Config.params s)) ∨
    ((portsIn s).rst = false ∧ acceptsRequest Config.params s = false ∧
      t = handshake Config.params s) := by
  obtain ⟨hr, he⟩ | ⟨-, -, he⟩ | ⟨hr, -, ha, he⟩ | ⟨hr, -, ha, he⟩ :=
    clockEdge_cases Config.params exec s
  · rw [step, he] at h
    exact .inl ⟨hr, (Host.Outcome.next.inj h).symm⟩
  · rw [step, he] at h
    cases h
  · rw [step, he, exec_eq_enqueue] at h
    exact .inr (.inl ⟨hr, ha, (Host.Outcome.next.inj h).symm⟩)
  · rw [step, he] at h
    exact .inr (.inr ⟨hr, ha, (Host.Outcome.next.inj h).symm⟩)

end Sys2Proof.Machine
end

