-- ==== Sys2Proof/Laws/PerInstr.lean ====
section
/-! SUPPORT. Statements about every instruction as written, one lemma per constructor. -/

/-- The request word of an instruction meets its row of spec/opcode_table.json: under the row's mask it is
the row's match. -/
def Sys2Proof.Laws.OpcodeRow.Statement : Sys2Proof.Instr → Prop
  | .add a b => Sys2Proof.encode (.add a b) &&& 0x300000000000000000000000000000000#130 = 0x0#130
  | .sub a b => Sys2Proof.encode (.sub a b) &&& 0x300000000000000000000000000000000#130 =
      0x100000000000000000000000000000000#130
  | .mul a b => Sys2Proof.encode (.mul a b) &&& 0x300000000000000000000000000000000#130 =
      0x200000000000000000000000000000000#130
  | .div a b => Sys2Proof.encode (.div a b) &&& 0x300000000000000000000000000000000#130 =
      0x300000000000000000000000000000000#130

/-- A word under the opcode table's mask is its operator field alone. -/
theorem Sys2Proof.Laws.OpcodeRow.mask_packRequest (op : BitVec 2) (a b : Sys2Proof.Bits64) :
    Sys2Proof.packRequest op a b &&& 0x300000000000000000000000000000000#130 =
      op ++ 0#64 ++ 0#64 := by
  have hm : (0x300000000000000000000000000000000#130) = (0b11#2 ++ 0#64 ++ 0#64) := by decide
  have h2 : op &&& 0b11#2 = op := BitVec.and_allOnes
  rw [hm, Sys2Proof.packRequest, BitVec.and_append, BitVec.and_append, h2, BitVec.and_zero,
    BitVec.and_zero]

theorem Sys2Proof.Laws.OpcodeRow.add (a b : Sys2Proof.Bits64) :
    Sys2Proof.Laws.OpcodeRow.Statement (.add a b) :=
  (Sys2Proof.Laws.OpcodeRow.mask_packRequest 0b00#2 a b).trans (by decide)

theorem Sys2Proof.Laws.OpcodeRow.sub (a b : Sys2Proof.Bits64) :
    Sys2Proof.Laws.OpcodeRow.Statement (.sub a b) :=
  (Sys2Proof.Laws.OpcodeRow.mask_packRequest 0b01#2 a b).trans (by decide)

theorem Sys2Proof.Laws.OpcodeRow.mul (a b : Sys2Proof.Bits64) :
    Sys2Proof.Laws.OpcodeRow.Statement (.mul a b) :=
  (Sys2Proof.Laws.OpcodeRow.mask_packRequest 0b10#2 a b).trans (by decide)

theorem Sys2Proof.Laws.OpcodeRow.div (a b : Sys2Proof.Bits64) :
    Sys2Proof.Laws.OpcodeRow.Statement (.div a b) :=
  (Sys2Proof.Laws.OpcodeRow.mask_packRequest 0b11#2 a b).trans (by decide)
end

