-- ==== Sys2Proof/Laws/Run.lean ====
section
/-! SUPPORT. Running the machine for several edges, unfolded by one edge. -/

namespace Sys2Proof.Machine

@[simp] theorem core_run_zero (s : State) : Host.Core.run Sys2Proof.core 0 s = .next s := rfl

/-- A run whose first edge answers a next state goes on from that state. -/
theorem core_run_succ {s t : State} (n : Nat) (h : step s = .next t) :
    Host.Core.run Sys2Proof.core (n + 1) s = Host.Core.run Sys2Proof.core n t := by
  have unfold_run : ∀ (M : Host.Core) (s t : M.State), M.step s = .next t →
      M.run (n + 1) s = M.run n t := by
    intro M s t h
    simp only [Host.Core.run, h]
  exact unfold_run Sys2Proof.core s t h

/-- A run that answers a next state has a first edge that does. -/
theorem step_of_core_run_succ {s t : State} (n : Nat)
    (h : Host.Core.run Sys2Proof.core (n + 1) s = .next t) :
    ∃ u, step s = .next u ∧ Host.Core.run Sys2Proof.core n u = .next t := by
  have unfold_run : ∀ (M : Host.Core) (s t : M.State), M.run (n + 1) s = .next t →
      ∃ u, M.step s = .next u ∧ M.run n u = .next t := by
    intro M s t h
    rw [Host.Core.run] at h
    cases hs : M.step s <;> rw [hs] at h
    · exact ⟨_, rfl, h⟩
    · cases h
    · cases h
  exact unfold_run Sys2Proof.core s t h

end Sys2Proof.Machine
end

