-- ==== Sys2Proof/Tests/Slice0.lean ====
section
/-! SUPPORT. Tests of single definitions and single steps, and one witness for the hypotheses of each
statement. Expected values come from spec/95_test_vectors.md (the row is named), from the spec's encodings
or from the rule named. -/

namespace Sys2Proof.Machine

/-! ### Request words, written out from R38 and R39 (rows E1 to E4) -/

theorem test_decode_add : decode 0x03FF00000000000004000000000000000#130 =
    .add 0x3FF0000000000000#64 0x4000000000000000#64 := by decide
theorem test_decode_sub : decode 0x13FF00000000000004000000000000000#130 =
    .sub 0x3FF0000000000000#64 0x4000000000000000#64 := by decide
theorem test_decode_mul : decode 0x23FF00000000000004000000000000000#130 =
    .mul 0x3FF0000000000000#64 0x4000000000000000#64 := by decide
theorem test_decode_div : decode 0x33FF00000000000004000000000000000#130 =
    .div 0x3FF0000000000000#64 0x4000000000000000#64 := by decide
/-- Bit by bit: `op = 11`, bit 127 (the sign of A), bit 0 (the last bit of B). -/
theorem test_decode_bits : decode (0b11#2 ++ (1#1 ++ 0#63) ++ (0#63 ++ 1#1)) =
    .div 0x8000000000000000#64 1#64 := by decide
theorem test_decodeTableWord_div : decodeTableWord 136 0x33FF00000000000004000000000000000 =
    some (.div 0x3FF0000000000000#64 0x4000000000000000#64) := by decide

/-! ### Ill-formed terms are refused, by name -/

theorem test_wide_number_refused : isRequestNumber (2 ^ 130) = false ∧
    decodeNumber (2 ^ 130) = .error .notARequestWord ∧ decodeTableWord 136 (2 ^ 130) = none := by decide
theorem test_left_shift_range : Tag.wellFormed (.normalizeLeft 0) = false ∧
    Tag.wellFormed (.normalizeLeft 53) = false ∧ Tag.wellFormed (.normalizeLeft 52) = true := by decide
theorem test_right_shift_range : Tag.wellFormed (.normalizeRight 0) = false ∧
    Tag.wellFormed (.normalizeRight 51) = false ∧ Tag.wellFormed (.normalizeRight 50) = true := by decide
theorem test_step_order_refused : isStepList [.add, .align] = false ∧
    isStepList [.roundKeep, .roundKeep, .roundCarry] = false ∧ isStepList [.add, .subAB] = false ∧
    Response.wellFormed ⟨0#64, [.normalizeLeft 53]⟩ = false := by decide
theorem test_response_refusals :
    decodeResponse (packResponse 0#64 6#3 0#45) = .error .tagCountAboveFive ∧
    decodeResponse (packResponse 0#64 0#3 1#45) = .error .unusedSlotNotZero ∧
    decodeResponse (packResponse 0#64 1#3 1#45) = .error .argumentNotZero ∧
    decodeResponse (packResponse 0#64 1#3 0x100#45) = .error .shiftOutOfRange ∧
    decodeResponse (packResponse 0#64 2#3 0#45) = .error .stepsOutOfOrder := by decide

/-! ### Operands, Aligner, pack -/

/-- Rows U4, U6, U10, U12. -/
theorem test_unpack : unpack 0x000FFFFFFFFFFFFF#64 = .finite false (-1022) 0xFFFFFFFFFFFFF true ∧
    unpack 0x7FEFFFFFFFFFFFFF#64 = .finite false 1023 0x1FFFFFFFFFFFFF false ∧
    unpack 0xFFF0000000000000#64 = .infinity true ∧ unpack 0x7FF0000000000001#64 = .nan false := by decide
/-- R82's example. -/
theorem test_widen : widen 3 (-1022) = ⟨3 * 2 ^ 51, -1073⟩ := by decide
/-- Rows S1, S2, S7. -/
theorem test_srs : srs 0xB 2 = 3 ∧ srs 8 2 = 2 ∧ srs 0x100000000000001 1 = 0x80000000000001 := by decide
/-- Rows K3, K6: ties to even, and the carry out of 53 bits. -/
theorem test_pack_round : pack false 0 0x8000000000000C = ⟨0x3FF0000000000002#64, [.roundCarry]⟩ ∧
    pack false 0 0xFFFFFFFFFFFFFC = ⟨0x4000000000000000#64, [.roundCarry]⟩ := by decide
/-- Rows K7, K8, K11: a main value of zero, a left shift by 52, overflow. -/
theorem test_pack_edges : pack true 5 7 = ⟨0x8000000000000000#64, []⟩ ∧
    pack false 0 8 = ⟨0x3CB0000000000000#64, [.normalizeLeft 52, .roundKeep]⟩ ∧
    pack true 1024 0x80000000000000 = ⟨0xFFF0000000000000#64, [.roundKeep]⟩ := by decide
/-- Rows K14, K17, K18: the second rounding's carry, the flush at `k = 53`, a second tie. -/
theorem test_pack_underflow :
    pack false (-1023) 0xFFFFFFFFFFFFF8 = ⟨0x0010000000000000#64, [.roundKeep, .roundCarry]⟩ ∧
    pack false (-1075) 0xFFFFFFFFFFFFF8 = ⟨0#64, [.roundKeep]⟩ ∧
    pack true (-1074) 0xC0000000000000 = ⟨0x8000000000000002#64, [.roundKeep, .roundCarry]⟩ := by decide

/-! ### The four operations, as response words -/

/-- Row A1: 0.1 + 0.2. -/
theorem test_add_inexact : encodeResponse
    (addResponse Params.default 0x3FB999999999999A#64 0x3FC999999999999A#64) =
    0x3FD3333333333334800C05048000#112 := by decide
/-- Rows A36 and AZ2: two zeros, at both values of `ZERO_ORDER`. -/
theorem test_add_zeros :
    addResponse Params.default 0#64 0x8000000000000000#64 = ⟨0x8000000000000000#64, []⟩ ∧
    addResponse { Params.default with zeroOrder := .bFirst } 0#64 0x8000000000000000#64 =
      ⟨0#64, []⟩ := by decide
/-- Row A18: 1.0 less its predecessor. -/
theorem test_sub_below_unit : encodeResponse
    (subResponse Params.default 0x3FF0000000000000#64 0x3FEFFFFFFFFFFFFF#64) =
    0x0000000000000000400000010000#112 := by decide
/-- Row A17: the sign of B after the flip. -/
theorem test_sub_flipped : encodeResponse
    (subResponse Params.default 0x3FF0000000000000#64 0x4000000000000000#64) =
    0xBFF0000000000000800E04058000#112 := by decide
/-- Row M16: double rounding. -/
theorem test_mul_double_rounding : encodeResponse
    (mulResponse Params.default 0x24BE87FEB44E82E8#64 0x9B27FD33B489C224#64) =
    0x8005B8D4E7161496600007038172#112 := by decide
/-- Rows M19, M27: minus infinity times zero, and a NaN before it. -/
theorem test_mul_nan :
    mulResponse Params.default 0xFFF0000000000000#64 0#64 = ⟨0xFFF8000000000000#64, []⟩ ∧
    mulResponse Params.default 0xFFF8000000000000#64 0#64 = ⟨0xFFF8000000000000#64, []⟩ := by decide
/-- Row D14: double rounding. -/
theorem test_div_double_rounding : encodeResponse
    (divResponse Params.default 0x8028281C2F79B54F#64 0xC00B6073C461A79B#64) =
    0x000E1E394C8ACA4E600006030143#112 := by decide
/-- Rows D20, D21, D18: the order of the checks. -/
theorem test_div_specials :
    divResponse Params.default 0x7FF0000000000000#64 0#64 = ⟨0x7FF0000000000000#64, []⟩ ∧
    divResponse Params.default 0#64 0x7FF0000000000000#64 = ⟨0#64, []⟩ ∧
    divResponse Params.default 0xBFF0000000000000#64 0#64 = ⟨0xFFF0000000000000#64, []⟩ := by decide

/-! ### Steps -/

/-- The next state, where there is one. -/
def nextOf : Host.Outcome State Fault Refusal → Option State
  | .next s => some s
  | .fault _ => none
  | .refused _ => none

/-- The request `DIV 1.0, 3.0` and its response (row D2), ready to be presented after `wait` edges. -/
def thirdEntry (wait : Nat) : Entry :=
  ⟨.div 0x3FF0000000000000#64 0x4008000000000000#64,
    ⟨0x3FD5555555555555#64, [.normalizeRight 3, .roundKeep]⟩, wait⟩

/-- A state with a queue and the inputs of the coming edges. -/
def stateWith (q : List Entry) (d : List PortsIn) (held : Option RequestWord) : State :=
  ⟨q, d, held, [], [], 0⟩

/-- The effect of an accepted request at the default parameters. -/
def performDefault (i : Instr) (s : State) : Host.Outcome State Fault Refusal :=
  .next (enqueue Params.default i (respond Params.default i) s)

/-- The first step after reset runs the request driven (row M7's operands, at the opaque parameters). -/
theorem test_first_step_runs_mul :
    ((nextOf (step (State.reset.withFetchWord 136 0x2C008000000000000C008000000000000))).map fun s =>
      s.inflight.map Entry.response) =
    some [⟨0x4022000000000000#64, [.normalizeRight 50, .roundKeep]⟩] := by decide
/-- A host that drives nothing: nothing happens (R113). -/
theorem test_idle_step : (nextOf (step State.reset)).map State.inflight = some [] := by decide
/-- Trace H1, edge 6, with room for two: accept ADD and take the DIV response at one edge. -/
theorem test_accept_and_take :
    ((nextOf (clockEdge { Params.default with depthPred := 1 } performDefault
        (stateWith [thirdEntry 0] [⟨false, true, 0, 1, 1, true⟩] none))).map fun s =>
      (s.inflight.map Entry.request, s.answered.map Prod.fst)) =
    some ([.add 1#64 1#64], [.div 0x3FF0000000000000#64 0x4008000000000000#64]) := by decide
/-- Trace H2, edge 3: at a reset edge nothing is accepted or taken and the queue is dropped. -/
theorem test_reset_edge :
    ((nextOf (clockEdge Params.default performDefault
        (stateWith [thirdEntry 0] [⟨true, true, 0, 1, 1, true⟩] none))).map fun s =>
      (s.inflight, s.answered.map Prod.fst, s.dropped)) =
    some ([], [], [.div 0x3FF0000000000000#64 0x4008000000000000#64]) := by decide
/-- R28: a host that changes a request it must hold is not modelled. -/
theorem test_changed_request_refused :
    nextOf (clockEdge Params.default performDefault
      (stateWith [] [⟨false, true, 0, 1, 1, true⟩] (some 0#130))) = none := by decide

/-! ### Text -/

/-- R48's forms: a name and a hexadecimal pattern. -/
theorem test_parse_line : parseLine ['v', '2', ' ', '=', ' ', 'S', 'U', 'B', ' ', 'v', '1', ',', ' ',
    '0', 'x', '3', 'F', 'F', '0', '0', '0', '0', '0', '0', '0', '0', '0', '0', '0', '0', '0'] =
    .ok ⟨2, ⟨0b01#2, .name 1, .pattern 0x3FF0000000000000#64⟩⟩ := by decide
/-- R40's example: the display form of 1.0 begins with the sign and the exponent field. -/
theorem test_display : (displayText 0x3FF0000000000000#64).length = 66 ∧
    (displayText 0x3FF0000000000000#64).take 14 =
      ['0', ' ', '0', '1', '1', '1', '1', '1', '1', '1', '1', '1', '1', ' '] := by decide
/-- R28: a text that is not 64 digits is rejected; R117: a name needs an earlier result. -/
theorem test_text_refused : parsePattern ['0', '1'] = .error .malformedBitPattern ∧
    parseRequest ['A', 'D', 'C', ' ', 'v', '1', ',', ' ', 'v', '1'] = .error .unknownMnemonic ∧
    assemble [] ⟨0b00#2, .name 1, .name 1⟩ = .error .undefinedName := by decide
/-- Program P1, line 2 assembles to its request word once `v1` has its value. -/
theorem test_assemble_name :
    assemble [(1, 0x3FD3333333333334#64)] ⟨0b01#2, .name 1, .pattern 0x3FD3333333333333#64⟩ =
    .ok 0x13FD33333333333343FD3333333333333#130 := by decide

/-! ### Witnesses: states and operands that meet the hypotheses of each statement -/

theorem witness_DecodeSelectsByOp : 2 ^ 130 ≤ 2 ^ 130 := by decide
theorem witness_ResponseWordLayout :
    ([Tag.align, .add, .normalizeLeft 52, .roundKeep, .roundCarry].length ≤ 5) ∧ 63 < 64 ∧
    ([] : List Tag).length ≤ 4 ∧ 4 < 5 := by decide
theorem witness_ResponseCodecAgrees :
    Response.wellFormed ⟨0#64, [.align, .subAB, .normalizeLeft 52, .roundKeep, .roundCarry]⟩ = true ∧
    decodeResponse 0x3FD3333333333334800C05048000#112 =
      .ok ⟨0x3FD3333333333334#64, [.align, .add, .normalizeRight 1, .roundCarry]⟩ := by decide
theorem witness_UnpackByFields : IsNaN 0x7FF0000000000001#64 ∧ IsInf 0xFFF0000000000000#64 ∧
    (0x000FFFFFFFFFFFFF#64).extractLsb' 52 11 = 0#11 ∧
    ((0x0010000000000000#64).extractLsb' 52 11 ≠ 0x7FF#11 ∧
      (0x0010000000000000#64).extractLsb' 52 11 ≠ 0#11) ∧
    ((0x7FEFFFFFFFFFFFFF#64).extractLsb' 52 11 ≠ 0x7FF#11 ∧
      (0x7FEFFFFFFFFFFFFF#64).extractLsb' 52 11 ≠ 0#11) := by decide
theorem witness_ValueOfPattern :
    (1 ≤ ((0x0010000000000000#64).extractLsb' 52 11).toNat ∧
      ((0x7FEFFFFFFFFFFFFF#64).extractLsb' 52 11).toNat ≤ 2046) ∧
    (0#64).extractLsb' 52 11 = 0#11 ∧ (0x7FF0000000000000#64).extractLsb' 52 11 = 0x7FF#11 := by decide
theorem witness_WidenNormalises :
    (unpack 1#64 = .finite false (-1022) 1 true ∧ ¬ IsZero 1#64) ∧
    (unpack 0x0010000000000000#64 = .finite false (-1022) (2 ^ 52) false ∧
      ¬ IsZero 0x0010000000000000#64 ∧ 2 ^ 52 ≤ 2 ^ 52) := by decide
theorem witness_SrsLaws : 1 ≤ 1 := by decide
theorem witness_PackOfZeroMain : 7 < 8 := by decide
theorem witness_NormaliseToBit55 :
    (8 ≤ 8 ∧ msb 8 + 52 = 55) ∧ (8 ≤ 2 ^ 55 ∧ msb (2 ^ 55) = 55) ∧
    (8 ≤ 2 ^ 105 ∧ msb (2 ^ 105) = 55 + 50) := by decide
theorem witness_PackRoundsToNearestEven :
    (8 ≤ 8 ∧ msb 8 < 52) ∧ (8 ≤ 2 ^ 52 ∧ 52 ≤ msb (2 ^ 52)) := by decide
theorem witness_UnderflowRoundsAgain :
    (2 ^ 52 ≤ 2 ^ 52 ∧ 2 ^ 53 - 1 < 2 ^ 53 ∧ 1 ≤ 1) ∧ 53 ≤ 53 ∧ 52 ≤ 52 := by decide
theorem witness_PackRangeLimits : 8 ≤ 8 ∧ (1024 : Int) ≤ 1076 + msb 8 - 55 ∧
    (-1024 : Int) + msb 8 - 55 ≤ -1076 := by decide
theorem witness_UnpackPackRoundTrip :
    unpack 0#64 = .finite false (-1022) 0 true ∧ unpack 1#64 = .finite false (-1022) 1 true ∧
    unpack 0xFFEFFFFFFFFFFFFF#64 = .finite true 1023 0x1FFFFFFFFFFFFF false := by decide
theorem witness_ExecFrame : ∃ t, exec (.add 0#64 0#64) State.reset = .next t := ⟨_, rfl⟩
theorem witness_AddSubSpecials :
    IsNaN 0x7FF0000000000001#64 ∧ IsInf 0x7FF0000000000000#64 ∧ IsInf 0xFFF0000000000000#64 ∧
    signBit 0x7FF0000000000000#64 = signBit (effectiveB true 0xFFF0000000000000#64) ∧
    signBit 0x7FF0000000000000#64 ≠ signBit (effectiveB false 0xFFF0000000000000#64) ∧
    IsFinite 0#64 ∧ IsZero 0x8000000000000000#64 ∧ IsFiniteNonzero 1#64 ∧
    IsFiniteNonzero 0x7FEFFFFFFFFFFFFF#64 := by decide
theorem witness_ExactCancellation : IsFiniteNonzero 0xFFEFFFFFFFFFFFFF#64 ∧
    effectiveB true 0xFFEFFFFFFFFFFFFF#64 = flipSign 0xFFEFFFFFFFFFFFFF#64 ∧ IsFiniteNonzero 1#64 ∧
    effectiveB false 0x8000000000000001#64 = flipSign 1#64 := by decide
theorem witness_CancellationBelowUnit :
    (2 ≤ ((0x0020000000000000#64).extractLsb' 52 11).toNat ∧ IsFinite 0x0020000000000000#64 ∧
      (0x0020000000000000#64).extractLsb' 0 52 = 0#52) ∧
    (2 ≤ ((0xFFE0000000000000#64).extractLsb' 52 11).toNat ∧ IsFinite 0xFFE0000000000000#64 ∧
      (0xFFE0000000000000#64).extractLsb' 0 52 = 0#52) := by decide
/-- For every statement about two finite nonzero operands. -/
theorem witness_FiniteNonzeroOperands : IsFiniteNonzero 0x3FF0000000000000#64 ∧
    IsFiniteNonzero 0x8000000000000001#64 ∧ IsFiniteNonzero 0x7FEFFFFFFFFFFFFF#64 := by decide
theorem witness_AddSubArithmetic :
    IsFiniteNonzero 0x4000000000000000#64 ∧ IsFiniteNonzero 0xBFF0000000000000#64 ∧
    unpack 0x4000000000000000#64 = .finite false 1 0x10000000000000 false ∧
    unpack (effectiveB false 0xBFF0000000000000#64) = .finite true 0 0x10000000000000 false ∧
    srs (0x10000000000000 * 8) 1 < 0x10000000000000 * 8 ∧
    unpack (effectiveB true 0xBFF0000000000000#64) = .finite false 0 0x10000000000000 false := by decide
theorem witness_AddCommutes : ¬ (IsZero 0#64 ∧ IsZero 1#64) := by decide
/-- The smallest subnormal plus the largest subnormal, and minus it. -/
theorem witness_SmallSumsAreExact :
    IsFiniteNonzero 1#64 ∧ IsFiniteNonzero 0x000FFFFFFFFFFFFF#64 ∧ units 1#64 = some 1 ∧
    units (effectiveB true 0x000FFFFFFFFFFFFF#64) = some (-0xFFFFFFFFFFFFF) ∧
    ¬ CancelsBelowUnit 1#64 (effectiveB true 0x000FFFFFFFFFFFFF#64) ∧
    |(1 : Int) + -0xFFFFFFFFFFFFF| ≤ 2 ^ 53 := by decide
/-- One sum below the limit (twice the smallest subnormal), one above it (twice the largest value). -/
theorem witness_AddSubIsNearest :
    (units 1#64 = some 1 ∧ units (effectiveB false 1#64) = some 1 ∧ ¬ CancelsBelowUnit 1#64 1#64 ∧
      |(1 : Int) + 1| < 2 ^ 2098 - 2 ^ 2044) ∧
    (units 0x7FEFFFFFFFFFFFFF#64 = some ((2 ^ 53 - 1) * 2 ^ 2045) ∧
      ¬ CancelsBelowUnit 0x7FEFFFFFFFFFFFFF#64 0x7FEFFFFFFFFFFFFF#64 ∧
      2 ^ 2098 - 2 ^ 2044 ≤ |((2 ^ 53 - 1) * 2 ^ 2045 : Int) + (2 ^ 53 - 1) * 2 ^ 2045|) := by
  decide +kernel
theorem witness_MulDivSpecials : IsNaN 0xFFF0000000000001#64 ∧ IsInf 0x7FF0000000000000#64 ∧
    IsZero 0x8000000000000000#64 ∧ IsFinite 0x8000000000000000#64 ∧ IsFiniteNonzero 1#64 := by decide
theorem witness_MulDivArithmetic :
    IsFiniteNonzero 1#64 ∧ unpack 1#64 = .finite false (-1022) 1 true ∧
    IsFiniteNonzero 0x4008000000000000#64 ∧
    unpack 0x4008000000000000#64 = .finite false 1 0x18000000000000 false := by decide
theorem witness_DivBySelf : IsFiniteNonzero 1#64 ∧ ¬ IsFiniteNonzero 0#64 := by decide
/-- `2^-1022` times 1, at the lower bound, and twice the largest value. -/
theorem witness_MulIsNearest :
    (units 0x0010000000000000#64 = some (2 ^ 52) ∧ units 0x3FF0000000000000#64 = some (2 ^ 1074) ∧
      2 ^ 52 * 2 ^ 1074 ≤ |(2 ^ 52 : Int) * 2 ^ 1074| ∧
      |(2 ^ 52 : Int) * 2 ^ 1074| < (2 ^ 2098 - 2 ^ 2044) * 2 ^ 1074) ∧
    (units 0x7FEFFFFFFFFFFFFF#64 = some ((2 ^ 53 - 1) * 2 ^ 2045) ∧
      units 0x4000000000000000#64 = some (2 ^ 1075) ∧
      (2 ^ 2098 - 2 ^ 2044) * 2 ^ 1074 ≤ |((2 ^ 53 - 1) * 2 ^ 2045 : Int) * 2 ^ 1075|) := by
  decide +kernel
/-- `2^-1022` over 1, at the lower bound, and the largest value over one half. -/
theorem witness_DivIsNearest :
    (2 ^ 52 * |(2 ^ 1074 : Int)| ≤ |(2 ^ 52 : Int)| * 2 ^ 1074 ∧
      |(2 ^ 52 : Int)| * 2 ^ 1074 < (2 ^ 2098 - 2 ^ 2044) * |(2 ^ 1074 : Int)|) ∧
    (units 0x3FE0000000000000#64 = some (2 ^ 1073) ∧
      (2 ^ 2098 - 2 ^ 2044) * |(2 ^ 1073 : Int)| ≤ |((2 ^ 53 - 1) * 2 ^ 2045 : Int)| * 2 ^ 1074) := by
  decide +kernel

/-- The inputs of one edge that presents `MUL 1.0, 1.0` and takes a response. -/
def busyEdge : PortsIn := ⟨false, true, 2, 0x3FF0000000000000#64, 0x3FF0000000000000#64, true⟩

theorem witness_ResetEdgeDropsAll :
    (portsIn (stateWith [thirdEntry 0] [⟨true, true, 0, 1, 1, true⟩] none)).rst = true := by decide
theorem witness_StepRunsAcceptedRequest :
    (portsIn (stateWith [] [busyEdge] none)).rst = false ∧ HostHolds (stateWith [] [busyEdge] none) ∧
    (portsIn (stateWith [] [busyEdge] none)).reqValid = true ∧
    (stateWith [] [busyEdge] none).inflight.length < Config.params.depth := by decide
theorem witness_FetchWordRunsNext :
    decodeTableWord 136 0x33FF00000000000004000000000000000 =
      some (.div 0x3FF0000000000000#64 0x4000000000000000#64) ∧
    State.reset.inflight.length < Config.params.depth := by decide
theorem witness_FullQueueAcceptsNothing :
    (portsIn (stateWith (List.replicate Config.params.depth (thirdEntry 1)) [busyEdge] none)).rst = false ∧
    HostHolds (stateWith (List.replicate Config.params.depth (thirdEntry 1)) [busyEdge] none) ∧
    Config.params.depth ≤
      (stateWith (List.replicate Config.params.depth (thirdEntry 1)) [busyEdge] none).inflight.length :=
  ⟨rfl, rfl, by simp [stateWith]⟩
theorem witness_TakingRemovesHead :
    (stateWith [thirdEntry 0] [busyEdge] none).inflight = thirdEntry 0 :: [] ∧ (thirdEntry 0).wait = 0 ∧
    (portsIn (stateWith [thirdEntry 0] [busyEdge] none)).rst = false ∧
    (portsIn (stateWith [thirdEntry 0] [busyEdge] none)).rspReady = true ∧
    HostHolds (stateWith [thirdEntry 0] [busyEdge] none) := by decide
theorem witness_PresentedResponseIsHeld :
    rspValid (stateWith [thirdEntry 0] [] none) = true ∧
    (portsIn (stateWith [thirdEntry 0] [] none)).rst = false ∧
    (portsIn (stateWith [thirdEntry 0] [] none)).rspReady = false ∧
    HostHolds (stateWith [thirdEntry 0] [] none) := by decide
/-- The invariant holds of a state with a response presented. -/
theorem witness_PortsShowHeadResponse :
    Invariant Config.params (stateWith [thirdEntry 0] [] none) ∧
    rspValid (stateWith [thirdEntry 0] [] none) = true := by
  refine ⟨⟨Nat.succ_le_succ (Nat.zero_le _), ?_, ?_⟩, by decide⟩
  · intro e he
    obtain rfl := List.mem_singleton.1 he
    decide
  · intro x hx
    cases hx
/-- A request held and changed, and the premise of a step that is refused. -/
theorem witness_StepStopsOnlyOnBrokenHold :
    (stateWith [] [busyEdge] (some 0#130)).held = some 0#130 ∧
    packRequest busyEdge.op busyEdge.a busyEdge.b ≠ 0#130 ∧
    step (stateWith [] [busyEdge] (some 0#130)) = .refused .hostChangedHeldRequest :=
  ⟨by decide, by decide, rfl⟩
/-- A step from a state with a presented response, taken while nothing is accepted. -/
theorem witness_StepKeepsInvariant :
    Invariant Config.params (stateWith [thirdEntry 0] [PortsIn.taking] none) ∧
    ∃ t, step (stateWith [thirdEntry 0] [PortsIn.taking] none) = .next t :=
  ⟨⟨witness_PortsShowHeadResponse.1.queueBound, witness_PortsShowHeadResponse.1.ownResponse,
    witness_PortsShowHeadResponse.1.ownAnswer⟩, _, rfl⟩
theorem witness_ResponsesInAcceptanceOrder :
    NoReset 1 (stateWith [] [busyEdge] none) ∧
    ∃ t, Host.Core.run Sys2Proof.core 1 (stateWith [] [busyEdge] none) = .next t :=
  ⟨by decide, _, rfl⟩
theorem witness_QueueDrains :
    (stateWith [thirdEntry 1] (List.replicate 2 PortsIn.taking) none).drive =
      List.replicate (edgesToDrain (stateWith [thirdEntry 1] (List.replicate 2 PortsIn.taking) none))
        PortsIn.taking ∧
    (stateWith [thirdEntry 1] (List.replicate 2 PortsIn.taking) none).inflight ≠ [] ∧
    (stateWith [thirdEntry 1] (List.replicate 2 PortsIn.taking) none).dropped = [] := by decide

end Sys2Proof.Machine
end

section
/-! The value of a pattern, by its fields (spec/00_scope.md R12). -/

namespace Sys2Proof.Machine

/-! ### What `unpack` gives, by the exponent field (R50) -/

theorem unpack_of_expField_zero {p : Bits64} (h : expField p = 0) :
    unpack p = .finite (signField p) (-1022) (fracField p) true := by
  simp [unpack, h]

theorem unpack_of_expField_normal {p : Bits64} (h1 : 1 ≤ expField p) (h2 : expField p ≤ 2046) :
    unpack p = .finite (signField p) ((expField p : Int) - 1023) (2 ^ 52 + fracField p) false := by
  have hmax : expField p ≠ 0x7FF := by omega
  have hzero : expField p ≠ 0 := by omega
  rw [unpack, if_neg hmax, if_neg hzero]

theorem unpack_of_expField_max {p : Bits64} (h : expField p = 0x7FF) :
    unpack p = if fracField p = 0 then .infinity (signField p) else .nan (signField p) := by
  rw [unpack, if_pos h]

/-! ### The value, by the exponent field -/

theorem applySign_eq_mul (s : Sign) (m : Nat) :
    applySign s m = (if s then (-1 : Int) else 1) * (m : Int) := by
  cases s <;> simp [applySign]

theorem units_of_unpack_finite {p : Bits64} {s : Sign} {e : Int} {m : Nat} {sub : Bool}
    (h : unpack p = .finite s e m sub) :
    units p = some (applySign s (m * 2 ^ (e + 1022).toNat)) := by
  rw [units, h]

/-- A normal pattern's exponent `E - 1023`, counted from `-1022`, is `E - 1`. -/
theorem units_of_expField_normal {p : Bits64} (h1 : 1 ≤ expField p) (h2 : expField p ≤ 2046) :
    units p = some (applySign (signField p) ((2 ^ 52 + fracField p) * 2 ^ (expField p - 1))) := by
  have hexp : ((expField p : Int) - 1023 + 1022).toNat = expField p - 1 := by omega
  rw [units_of_unpack_finite (unpack_of_expField_normal h1 h2), hexp]

theorem units_of_expField_zero {p : Bits64} (h : expField p = 0) :
    units p = some (applySign (signField p) (fracField p)) := by
  have hexp : ((-1022 : Int) + 1022).toNat = 0 := by decide
  rw [units_of_unpack_finite (unpack_of_expField_zero h), hexp, Nat.pow_zero, Nat.mul_one]

theorem units_of_expField_max {p : Bits64} (h : expField p = 0x7FF) : units p = none := by
  rw [units, unpack_of_expField_max h]
  by_cases hfrac : fracField p = 0
  · rw [if_pos hfrac]
  · rw [if_neg hfrac]

/-- Settles O10, by the three ranges of the exponent field. -/
theorem valueOfPattern : Obligations.ValueOfPattern := by
  intro p
  refine ⟨fun h1 h2 => ?normal, fun h => ?subnormal, fun h => ?noValue⟩
  case normal =>
    rw [units_of_expField_normal h1 h2, applySign_eq_mul, Nat.cast_mul, Nat.cast_pow]
    rfl
  case subnormal =>
    have hexp : expField p = 0 := congrArg BitVec.toNat h
    rw [units_of_expField_zero hexp, applySign_eq_mul]
    rfl
  case noValue =>
    exact units_of_expField_max (congrArg BitVec.toNat h)

end Sys2Proof.Machine
end

section
/-! What one edge does to the queue, to the host's record and to the ports (spec/10_state.md R20 to R26). -/

namespace Sys2Proof.Machine

/-! ### The input ports at an edge -/

/-- The edge's own inputs are not reset inputs, and neither are those of the edges after it. -/
theorem noReset_succ {n : Nat} {s : State} (h : NoReset (n + 1) s) :
    (portsIn s).rst = false ∧ ∀ x ∈ s.drive.tail.take n, x.rst = false := by
  cases hd : s.drive with
  | nil => simp [portsIn, hd, PortsIn.idle]
  | cons x xs =>
    rw [NoReset, hd, List.take_succ_cons] at h
    obtain ⟨hx, hxs⟩ := List.forall_mem_cons.1 h
    exact ⟨by rw [portsIn, hd]; exact hx, hxs⟩

/-- The three fields of a request word make up the word (R38). -/
theorem packRequest_fields (w : RequestWord) : packRequest (opField w) (aField w) (bField w) = w := by
  have h := w.isLt
  apply BitVec.eq_of_toNat_eq
  simp only [packRequest, opField, aField, bField, BitVec.toNat_append, BitVec.extractLsb'_toNat,
    Nat.shiftRight_eq_div_pow]
  rw [← Nat.shiftLeft_add_eq_or_of_lt (by omega), ← Nat.shiftLeft_add_eq_or_of_lt (by omega),
    Nat.shiftLeft_eq, Nat.shiftLeft_eq]
  omega

@[simp] theorem request_ofRequest (w : RequestWord) : (PortsIn.ofRequest w).request = w :=
  packRequest_fields w

@[simp] theorem portsIn_presentNext (p : Params) (w : RequestWord) (s : State) :
    portsIn (presentNext p w s) = PortsIn.ofRequest w := rfl

/-- `presentNext` presents its request to a unit that is ready. -/
@[simp] theorem reqReady_presentNext (p : Params) (w : RequestWord) (s : State) :
    reqReady p (presentNext p w s) = true := by
  rw [reqReady_iff, presentNext_inflight]
  by_cases h : reqReady p s = true
  · rw [if_pos h]; exact (reqReady_iff p s).1 h
  · rw [if_neg h]; exact depth_pos p

/-! ### Accepting, taking and holding -/

theorem acceptsRequest_iff (p : Params) (s : State) :
    acceptsRequest p s = true ↔
      (portsIn s).rst = false ∧ (portsIn s).reqValid = true ∧ s.inflight.length < p.depth := by
  simp [acceptsRequest, reqReady_iff, and_assoc]

theorem takesResponse_iff (s : State) :
    takesResponse s = true ↔
      (portsIn s).rst = false ∧ rspValid s = true ∧ (portsIn s).rspReady = true := by
  simp [takesResponse, and_assoc]

/-- At an edge that is no reset edge, a presented response is taken when the host is ready for it. -/
theorem takesResponse_of_not_rst {s : State} (hr : (portsIn s).rst = false) :
    takesResponse s = true ↔ rspValid s = true ∧ (portsIn s).rspReady = true := by
  simp [takesResponse_iff, hr]

theorem not_takesResponse_of_not_rspReady {s : State} (h : (portsIn s).rspReady = false) :
    ¬ takesResponse s = true := by
  simp [takesResponse_iff, h]

/-- Only changing a request that must be held, while still presenting one, breaks the hold (R21, R28). -/
theorem holdBroken_iff (s : State) :
    holdBroken s = true ↔ (portsIn s).rst = false ∧ (portsIn s).reqValid = true ∧
      ∃ w, s.held = some w ∧ (portsIn s).request ≠ w := by
  unfold holdBroken
  cases s.held <;> simp [and_assoc]

/-- An edge at which the unit is ready leaves no request to be held. -/
theorem heldAfter_of_reqReady {p : Params} {s : State} (h : reqReady p s = true) :
    heldAfter p s = none := by
  simp [heldAfter, h]

theorem heldAfter_of_not_reqReady {p : Params} {s : State} (h : reqReady p s = false) :
    heldAfter p s = if (portsIn s).reqValid = true then some (portsIn s).request else none := by
  simp [heldAfter, h]

theorem heldAfter_of_not_reqValid {p : Params} {s : State} (h : (portsIn s).reqValid = false) :
    heldAfter p s = none := by
  simp [heldAfter, h]

/-! ### The queue after an edge -/

theorem queueAfter_of_takes {s : State} (h : takesResponse s = true) :
    queueAfter s = s.inflight.tail := if_pos h

theorem queueAfter_of_not_takes {s : State} (h : ¬ takesResponse s = true) :
    queueAfter s = tickHead s.inflight := if_neg h

theorem answeredAfter_of_takes {s : State} (h : takesResponse s = true) :
    answeredAfter s = s.answered ++ (s.inflight.take 1).map (fun e => (e.request, e.response)) :=
  if_pos h

theorem answeredAfter_of_not_takes {s : State} (h : ¬ takesResponse s = true) :
    answeredAfter s = s.answered := if_neg h

/-- A head whose wait is over does not change while it waits to be taken. -/
theorem tickHead_of_wait_zero {e : Entry} (es : List Entry) (h : e.wait = 0) :
    tickHead (e :: es) = e :: es := by
  obtain ⟨i, r, w⟩ := e
  obtain rfl : w = 0 := h
  rfl

/-- What is in flight after an edge, less what it accepts, are the latest of the requests before it. -/
theorem queueAfter_requests_suffix (s : State) :
    (queueAfter s).map Entry.request <:+ s.inflight.map Entry.request := by
  by_cases h : takesResponse s = true
  · rw [queueAfter_of_takes h]
    exact (List.tail_suffix _).map _
  · rw [queueAfter_of_not_takes h, tickHead_requests]

/-- An edge takes back no response (R23). -/
theorem answered_prefix_answeredAfter (s : State) : s.answered <+: answeredAfter s := by
  by_cases h : takesResponse s = true
  · rw [answeredAfter_of_takes h]
    exact List.prefix_append _ _
  · rw [answeredAfter_of_not_takes h]

/-! ### The response ports -/

/-- While a response is presented, the ports carry its encoding (R23, R47). -/
theorem responsePort_of_presented {p : Params} {s : State} {r : Response} (h : presented s = some r) :
    responsePort p s = encodeResponse r := by
  simp [responsePort, resultPort, tagCountPort, tagsPort, h, encodeResponse]

theorem presented_of_head {s : State} {e : Entry} {es : List Entry} (hq : s.inflight = e :: es)
    (hw : e.wait = 0) : presented s = some e.response :=
  (presented_iff s _).2 ⟨e, es, hq, hw, rfl⟩

/-! ### A step, by whether the host holds what it must -/

/-- A broken hold is the one thing that stops a step (R28, R100). -/
theorem step_cases (s : State) :
    (holdBroken s = true ∧ step s = .refused .hostChangedHeldRequest) ∨
    (HostHolds s ∧ ∃ t, step s = .next t) := by
  obtain ⟨hr, hs⟩ | ⟨-, hb, hs⟩ | ⟨-, hb, -, hs⟩ | ⟨-, hb, -, hs⟩ :=
    clockEdge_cases Config.params exec s
  · have hold : HostHolds s := by
      rw [HostHolds, Bool.eq_false_iff, Ne, holdBroken_iff]
      simp [hr]
    exact .inr ⟨hold, _, hs⟩
  · exact .inl ⟨hb, hs⟩
  · exact .inr ⟨hb, _, hs.trans (exec_eq_enqueue _ _)⟩
  · exact .inr ⟨hb, _, hs⟩

theorem hostHolds_of_step_next {s t : State} (h : step s = .next t) : HostHolds s := by
  obtain ⟨-, hs⟩ | ⟨hold, -⟩ := step_cases s
  · rw [h] at hs
    cases hs
  · exact hold

theorem step_of_accepts {s : State} (hb : HostHolds s) (ha : acceptsRequest Config.params s = true) :
    step s = exec (decode (portsIn s).request) (handshake Config.params s) := by
  obtain ⟨hr, -, -⟩ := (acceptsRequest_iff _ s).1 ha
  rw [step_of_held hr hb, if_pos ha]

theorem step_of_not_accepts {s : State} (hr : (portsIn s).rst = false) (hb : HostHolds s)
    (ha : ¬ acceptsRequest Config.params s = true) : step s = .next (handshake Config.params s) := by
  rw [step_of_held hr hb, if_neg ha]

/-- The request accepted at the next edge, if one is. -/
def acceptedNow (p : Params) (s : State) : List Instr :=
  if acceptsRequest p s then [decode (portsIn s).request] else []

/-- The entry of a request accepted at the next edge, as it joins the queue. -/
def acceptedEntry (p : Params) (s : State) (i : Instr) : Entry :=
  ⟨i, respond p i, p.latency (s.edges + 1) i⟩

/-- An edge with `rst = 0`, the effect of an accepted request included. -/
def edgeResult (p : Params) (s : State) : State :=
  { handshake p s with inflight := queueAfter s ++ (acceptedNow p s).map (acceptedEntry p s) }

@[simp] theorem edgeResult_inflight (p : Params) (s : State) :
    (edgeResult p s).inflight = queueAfter s ++ (acceptedNow p s).map (acceptedEntry p s) := rfl
@[simp] theorem edgeResult_drive (p : Params) (s : State) :
    (edgeResult p s).drive = s.drive.tail := rfl
@[simp] theorem edgeResult_held (p : Params) (s : State) :
    (edgeResult p s).held = heldAfter p s := rfl
@[simp] theorem edgeResult_answered (p : Params) (s : State) :
    (edgeResult p s).answered = answeredAfter s := rfl
@[simp] theorem edgeResult_dropped (p : Params) (s : State) :
    (edgeResult p s).dropped = s.dropped := rfl
@[simp] theorem edgeResult_edges (p : Params) (s : State) :
    (edgeResult p s).edges = s.edges + 1 := rfl

/-- Whether or not it accepts a request, a step with `rst = 0` of a host that holds what it must is
`edgeResult`. -/
theorem step_eq_edgeResult {s : State} (hr : (portsIn s).rst = false) (hb : HostHolds s) :
    step s = .next (edgeResult Config.params s) := by
  by_cases ha : acceptsRequest Config.params s = true
  · rw [step_of_accepts hb ha, exec_eq_enqueue, edgeResult, acceptedNow, if_pos ha]
    rfl
  · rw [step_of_not_accepts hr hb ha, edgeResult, acceptedNow, if_neg ha, List.map_nil,
      List.append_nil]
    rfl

/-! ### Requests with their responses, taken or in flight -/

/-- Every request the unit owes or has given a response to, with that response, in the order of
acceptance. -/
def exchanges (s : State) : List (Instr × Response) :=
  s.answered ++ s.inflight.map (fun e => (e.request, e.response))

theorem history_eq_exchanges (s : State) : history s = (exchanges s).map Prod.fst := by
  simp [history, exchanges]

theorem exchanges_handshake (p : Params) (s : State) : exchanges (handshake p s) = exchanges s :=
  handshake_content p s

theorem exchanges_enqueue (p : Params) (i : Instr) (r : Response) (s : State) :
    exchanges (enqueue p i r s) = exchanges s ++ [(i, r)] := by
  simp [exchanges]

/-- The edge adds the accepted request, with its own response, at the end. -/
theorem exchanges_edgeResult (p : Params) (s : State) :
    exchanges (edgeResult p s) =
      exchanges s ++ (acceptedNow p s).map (fun i => (i, respond p i)) := by
  rw [← exchanges_handshake p s]
  simp [exchanges, acceptedEntry]

theorem exchanges_of_inflight_nil {s : State} (h : s.inflight = []) : exchanges s = s.answered := by
  simp [exchanges, h]

/-- The invariant is the queue's bound and a property of the exchanges alone. -/
theorem invariant_iff (p : Params) (s : State) :
    Invariant p s ↔ s.inflight.length ≤ p.depth ∧ ∀ x ∈ exchanges s, x.2 = respond p x.1 := by
  constructor
  · rintro ⟨hbound, hown, hans⟩
    refine ⟨hbound, fun x hx => ?_⟩
    obtain hx | hx := List.mem_append.1 hx
    · exact hans x hx
    · obtain ⟨e, he, rfl⟩ := List.mem_map.1 hx
      exact hown e he
  · rintro ⟨hbound, hex⟩
    exact ⟨hbound,
      fun e he => hex _ (List.mem_append_right _ (List.mem_map_of_mem he)),
      fun x hx => hex x (List.mem_append_left _ hx)⟩

end Sys2Proof.Machine
end

section
/-! The invariant: the queue's bound, and every response the response to its own request (R22, R26). -/

namespace Sys2Proof.Machine

theorem invariant_resetEdge {p : Params} {s : State} (h : Invariant p s) : Invariant p (resetEdge s) where
  queueBound := Nat.zero_le _
  ownResponse := by simp
  ownAnswer := h.ownAnswer

theorem invariant_handshake {p : Params} {s : State} (h : Invariant p s) :
    Invariant p (handshake p s) := by
  obtain ⟨hbound, hex⟩ := (invariant_iff p s).1 h
  rw [invariant_iff, exchanges_handshake]
  exact ⟨(queueAfter_length_le s).trans hbound, hex⟩

/-- A request with its own response may join a queue that has room. -/
theorem invariant_enqueue {p : Params} {s : State} (i : Instr) (h : Invariant p s)
    (hroom : s.inflight.length < p.depth) : Invariant p (enqueue p i (respond p i) s) := by
  obtain ⟨-, hex⟩ := (invariant_iff p s).1 h
  rw [invariant_iff, exchanges_enqueue]
  refine ⟨by simpa using hroom, fun x hx => ?_⟩
  obtain hx | hx := List.mem_append.1 hx
  · exact hex x hx
  · rw [List.mem_singleton.1 hx]

/-- Settles O53, by the three things a step that answers can be: a reset edge, an edge that accepts a
request (so that there was room before it), and an edge that accepts none. -/
theorem stepKeepsInvariant : Obligations.StepKeepsInvariant := by
  intro s t hinv hstep
  obtain ⟨-, rfl⟩ | ⟨-, ha, rfl⟩ | ⟨-, -, rfl⟩ := step_next_cases hstep
  case inl => exact invariant_resetEdge hinv
  case inr.inl =>
    obtain ⟨-, -, hroom⟩ := (acceptsRequest_iff _ s).1 ha
    exact invariant_enqueue _ (invariant_handshake hinv) ((queueAfter_length_le s).trans_lt hroom)
  case inr.inr => exact invariant_handshake hinv

/-- Settles O52: there is no response at all in the reset state. -/
theorem resetMeetsInvariant : Obligations.ResetMeetsInvariant := by
  rw [Obligations.ResetMeetsInvariant, invariant_iff]
  exact ⟨Nat.zero_le _, by simp [exchanges]⟩

end Sys2Proof.Machine
end

section
/-! Requests are answered in the order of acceptance, each once (R25). -/

namespace Sys2Proof.Machine

theorem acceptedDuring_succ {s u : State} (n : Nat) (h : step s = .next u) :
    acceptedDuring (n + 1) s = acceptedNow Config.params s ++ acceptedDuring n u := by
  rw [acceptedDuring, h]
  rfl

/-- An edge adds the request it accepts, if it accepts one, to the history. -/
theorem history_edgeResult (p : Params) (s : State) :
    history (edgeResult p s) = history s ++ acceptedNow p s := by
  rw [history_eq_exchanges, exchanges_edgeResult, history_eq_exchanges]
  simp [Function.comp_def]

/-- Settles O54, by induction on the number of edges, from every state. -/
theorem responsesInAcceptanceOrder : Obligations.ResponsesInAcceptanceOrder := by
  intro n
  induction n with
  | zero =>
    intro s t _ hrun
    obtain rfl := Host.Outcome.next.inj hrun
    simp [acceptedDuring]
  | succ n ih =>
    intro s t hno hrun
    obtain ⟨u, hstep, hrest⟩ := step_of_core_run_succ n hrun
    obtain ⟨hr, hnoRest⟩ := noReset_succ hno
    obtain rfl : edgeResult Config.params s = u :=
      Host.Outcome.next.inj ((step_eq_edgeResult hr (hostHolds_of_step_next hstep)).symm.trans hstep)
    obtain ⟨ihHist, ihAnswered⟩ := ih _ t hnoRest hrest
    refine ⟨?_, (answered_prefix_answeredAfter s).trans ihAnswered⟩
    rw [ihHist, history_edgeResult, acceptedDuring_succ n hstep, List.append_assoc]

end Sys2Proof.Machine
end

section
/-! A host that takes responses drains the queue in bounded time (R24, R119, R120). -/

namespace Sys2Proof.Machine

theorem edgesToDrain_eq_zero_iff (s : State) : edgesToDrain s = 0 ↔ s.inflight = [] := by
  rw [edgesToDrain]
  cases s.inflight <;> simp

/-- An edge of a host that only takes is the handshake alone. -/
theorem step_of_taking {s : State} (h : portsIn s = PortsIn.taking) :
    step s = .next (handshake Config.params s) := by
  have hold : holdBroken s = false := by
    rw [Bool.eq_false_iff, Ne, holdBroken_iff, h]
    simp [PortsIn.taking]
  refine step_of_not_accepts (by rw [h]; rfl) hold ?_
  rw [acceptsRequest_iff, h]
  simp [PortsIn.taking]

/-- A host that takes gets the head's response once its wait is over; until then the wait gets shorter by
one. Either way one edge less is needed. -/
theorem edgesToDrain_handshake {s : State} (p : Params) (h : portsIn s = PortsIn.taking) :
    edgesToDrain (handshake p s) = edgesToDrain s - 1 := by
  have htake : takesResponse s = true ↔ rspValid s = true := by
    rw [takesResponse_iff, h]
    simp [PortsIn.taking]
  rw [edgesToDrain, edgesToDrain, handshake_inflight]
  cases hq : s.inflight with
  | nil =>
    have hnone : queueAfter s = [] := by simpa [hq] using queueAfter_length_le s
    rw [hnone]
    rfl
  | cons e es =>
    by_cases hw : e.wait = 0
    · rw [queueAfter_of_takes (htake.2 ((rspValid_iff s).2 ⟨e, es, hq, hw⟩)), hq]
      simp [hw]
    · have hwait : ¬ takesResponse s = true := by
        rw [htake, rspValid_iff, hq]
        rintro ⟨e', es', he, hw'⟩
        cases he
        exact hw hw'
      rw [queueAfter_of_not_takes hwait, hq]
      simp only [tickHead_cons, List.map_cons, List.sum_cons]
      omega

/-- The run of a host that only takes, by induction on the edges that the queue still needs. -/
theorem run_taking_drains (n : Nat) : ∀ s : State, edgesToDrain s = n →
    s.drive = List.replicate n PortsIn.taking →
    ∃ t, Host.Core.run Sys2Proof.core n s = .next t ∧ t.inflight = [] ∧ t.drive = [] ∧
      t.dropped = s.dropped ∧ exchanges t = exchanges s ∧
      (s.held = none ∨ n ≠ 0 → t.held = none) := by
  induction n with
  | zero =>
    intro s hn hdrive
    exact ⟨s, rfl, (edgesToDrain_eq_zero_iff s).1 hn, hdrive, rfl, rfl, by simp⟩
  | succ n ih =>
    intro s hn hdrive
    have hports : portsIn s = PortsIn.taking := by rw [portsIn, hdrive]; rfl
    have hheld : (handshake Config.params s).held = none :=
      heldAfter_of_not_reqValid (by rw [hports]; rfl)
    obtain ⟨t, hrun, hqueue, hend, hdrop, hex, hnone⟩ := ih (handshake Config.params s)
      (by rw [edgesToDrain_handshake _ hports, hn]; rfl) (by rw [handshake_drive, hdrive]; rfl)
    refine ⟨t, (core_run_succ n (step_of_taking hports)).trans hrun, hqueue, hend, hdrop, ?_, ?_⟩
    · rw [hex, exchanges_handshake]
    · exact fun _ => hnone (.inl hheld)

/-- Settles O55: once the queue is empty, all exchanges of the start have been answered. -/
theorem queueDrains : Obligations.QueueDrains := by
  intro s hdrive
  obtain ⟨t, hrun, hqueue, hend, hdrop, hex, hnone⟩ := run_taking_drains _ s rfl hdrive
  refine ⟨t, hrun, hqueue, hend, hdrop, ?_, fun hne hnodrop => ⟨?_, ?_, hqueue, hdrop.trans hnodrop⟩⟩
  · rw [← exchanges_of_inflight_nil hqueue, hex, exchanges]
  · simp [hend]
  · exact hnone (.inr (mt (edgesToDrain_eq_zero_iff s).1 hne))

end Sys2Proof.Machine
end

section
/-! Statements about one edge: acceptance, back-pressure, taking and holding (R20 to R28, R100). -/

namespace Sys2Proof.Machine

/-- A word of the opcode table that decodes is a request word, and decodes as one. -/
theorem decode_of_decodeTableWord {nbits w : Nat} {i : Instr} (h : decodeTableWord nbits w = some i) :
    decode (BitVec.ofNat 130 (w % 2 ^ nbits)) = i := by
  rw [decodeTableWord, decodeNumber] at h
  by_cases hw : isRequestNumber (w % 2 ^ nbits) = true
  · rw [if_pos hw] at h
    exact Option.some.inj h
  · rw [if_neg hw] at h
    cases h

/-- The edge after `presentNext` accepts its request. -/
theorem step_presentNext (w : RequestWord) (s : State) :
    step (presentNext Config.params w s) =
      exec (decode w) (handshake Config.params (presentNext Config.params w s)) := by
  have hold : HostHolds (presentNext Config.params w s) := rfl
  have haccept : acceptsRequest Config.params (presentNext Config.params w s) = true := by
    rw [acceptsRequest_iff, ← reqReady_iff, reqReady_presentNext]
    exact ⟨rfl, rfl, rfl⟩
  rw [step_of_accepts hold haccept, portsIn_presentNext, request_ofRequest]

/-- Settles O46: the presented word is accepted, and its edge takes no response. -/
theorem fetchWordRunsNext : Obligations.FetchWordRunsNext := by
  intro s nbits w i hi
  have htakes : ¬ takesResponse (s.withFetchWord nbits w) = true :=
    not_takesResponse_of_not_rspReady rfl
  refine ⟨handshake Config.params (s.withFetchWord nbits w), ?_, rfl,
    answeredAfter_of_not_takes htakes, rfl, fun hroom => ?_⟩
  · rw [State.withFetchWord, step_presentNext, decode_of_decodeTableWord hi]
  · rw [handshake_inflight, queueAfter_of_not_takes htakes, State.withFetchWord, presentNext_inflight,
      if_pos ((reqReady_iff _ s).2 hroom)]

/-- Settles O47: without room nothing is accepted, so the step is the handshake alone. -/
theorem fullQueueAcceptsNothing : Obligations.FullQueueAcceptsNothing := by
  intro s hr hold hfull
  have hready : reqReady Config.params s = false := by
    rw [Bool.eq_false_iff, Ne, reqReady_iff]
    omega
  have hnot : ¬ acceptsRequest Config.params s = true := by
    rw [acceptsRequest_iff]
    omega
  exact ⟨hready, _, step_of_not_accepts hr hold hnot, queueAfter_length_le s,
    queueAfter_requests_suffix s, heldAfter_of_not_reqReady hready⟩

/-- Settles O48: the presented head is taken, and the accepted entry joins what is left. -/
theorem takingRemovesHead : Obligations.TakingRemovesHead := by
  intro s e es hq hw hr hready hold
  have htakes : takesResponse s = true :=
    (takesResponse_iff s).2 ⟨hr, (rspValid_iff s).2 ⟨e, es, hq, hw⟩, hready⟩
  refine ⟨_, step_eq_edgeResult hr hold, ?_, rfl, ?_⟩
  · rw [edgeResult_answered, answeredAfter_of_takes htakes, hq]
    rfl
  · simp only [edgeResult_inflight, queueAfter_of_takes htakes, hq, List.tail_cons, List.map_append,
      acceptedNow, acceptsRequest_iff, hr, true_and]
    split <;> rfl

/-- Settles O49: a head whose wait is over and that is not taken stays the head as it is. -/
theorem presentedResponseIsHeld : Obligations.PresentedResponseIsHeld := by
  intro s hvalid hr hready hold
  have htakes : ¬ takesResponse s = true := not_takesResponse_of_not_rspReady hready
  obtain ⟨e, es, hq, hw⟩ := (rspValid_iff s).1 hvalid
  have hqueue : (edgeResult Config.params s).inflight =
      e :: (es ++ (acceptedNow Config.params s).map (acceptedEntry Config.params s)) := by
    rw [edgeResult_inflight, queueAfter_of_not_takes htakes, hq, tickHead_of_wait_zero es hw,
      List.cons_append]
  refine ⟨_, step_eq_edgeResult hr hold, (rspValid_iff _).2 ⟨e, _, hqueue, hw⟩, ?_,
    answeredAfter_of_not_takes htakes⟩
  rw [responsePort_of_presented (presented_of_head hqueue hw),
    responsePort_of_presented (presented_of_head hq hw)]

/-- Settles O51, by whether the hold is broken: a step is refused then, and answers a next state if not. -/
theorem stepStopsOnlyOnBrokenHold : Obligations.StepStopsOnlyOnBrokenHold := by
  intro s
  have hbroken := holdBroken_iff s
  obtain ⟨hb, hs⟩ | ⟨hold, t, hs⟩ := step_cases s
  · refine ⟨by simp [hs], fun r => ?_⟩
    rw [hs, Host.Outcome.refused.injEq, eq_comm]
    exact (and_iff_left (hbroken.1 hb)).symm
  · refine ⟨by simp [hs], fun r => ⟨by simp [hs], fun ⟨_, hchanged⟩ => ?_⟩⟩
    exact absurd (hbroken.2 hchanged) (by simp [hold])

/-- Settles O20: each of the four operations puts its own response at the tail of the queue. -/
theorem everyRequestCompletes : Obligations.EveryRequestCompletes := fun _ _ s =>
  ⟨exec_eq_enqueue _ s, exec_eq_enqueue _ s, exec_eq_enqueue _ s, exec_eq_enqueue _ s⟩

/-- Settles O21: `enqueue` changes the queue alone, and there only the tail. -/
theorem execFrame : Obligations.ExecFrame := by
  intro i s t h
  rw [exec_eq_enqueue] at h
  obtain rfl := Host.Outcome.next.inj h
  exact ⟨rfl, rfl, rfl, rfl, rfl, _, rfl, rfl⟩

/-- Settles O22: the response is `respond` of the request, which reads no state. -/
theorem responseIndependentOfState : Obligations.ResponseIndependentOfState := fun i =>
  ⟨respond Config.params i, fun s => ⟨_, exec_eq_enqueue i s⟩⟩

/-- Settles O43: an empty queue has room and presents nothing. -/
theorem resetValues : Obligations.ResetValues :=
  ⟨rfl, (reqReady_iff _ _).2 (depth_pos _), rfl⟩

/-- Settles O45: the accepted request runs in the state that the handshake leaves. -/
theorem stepRunsAcceptedRequest : Obligations.StepRunsAcceptedRequest := by
  intro s hr hold hvalid hroom
  have haccept := (acceptsRequest_iff Config.params s).2 ⟨hr, hvalid, hroom⟩
  have hheld := heldAfter_of_reqReady ((reqReady_iff Config.params s).2 hroom)
  refine ⟨_, step_of_accepts hold haccept, rfl, hheld, rfl, rfl, ?_, ?_⟩
  · simp only [handshake_inflight, queueAfter, takesResponse_of_not_rst hr]
  · simp only [handshake_answered, answeredAfter, takesResponse_of_not_rst hr]

/-- Settles O50: the head's response is presented, and by the invariant it is its request's own. -/
theorem portsShowHeadResponse : Obligations.PortsShowHeadResponse := by
  intro p s hinv hvalid
  obtain ⟨e, es, hq, hw⟩ := (rspValid_iff s).1 hvalid
  have hown : e.response = respond p e.request := hinv.ownResponse e (by simp [hq])
  refine ⟨e, es, hq, ?_⟩
  rw [responsePort_of_presented (presented_of_head hq hw), hown]

end Sys2Proof.Machine
end

section
/-! The request word: its fields, and decoding against encoding (spec/30_encoding.md R38, R39, R43, R49). -/

namespace Sys2Proof

/-- A word put together of two is the upper one, shifted past the lower one, plus the lower one. -/
theorem toNat_append_eq_add {m n : Nat} (x : BitVec m) (y : BitVec n) :
    (x ++ y).toNat = x.toNat * 2 ^ n + y.toNat := by
  rw [BitVec.toNat_append, ← Nat.shiftLeft_add_eq_or_of_lt y.isLt, Nat.shiftLeft_eq]

/-! ### The fields of a request word (R38) -/

@[simp] theorem opField_packRequest (op : BitVec 2) (a b : Bits64) :
    opField (packRequest op a b) = op := by
  rw [opField, packRequest, BitVec.extractLsb'_append_eq_of_le (by decide)]
  exact BitVec.extractLsb'_append_eq_left

@[simp] theorem aField_packRequest (op : BitVec 2) (a b : Bits64) :
    aField (packRequest op a b) = a := by
  rw [aField, packRequest, BitVec.extractLsb'_append_eq_of_le (by decide)]
  exact BitVec.extractLsb'_append_eq_right

@[simp] theorem bField_packRequest (op : BitVec 2) (a b : Bits64) :
    bField (packRequest op a b) = b :=
  BitVec.extractLsb'_append_eq_right

/-- The three fields are all of a request word. -/
@[simp] theorem packRequest_fields (w : RequestWord) :
    packRequest (opField w) (aField w) (bField w) = w := by
  have hop : opField w ++ aField w = w.extractLsb' 64 66 :=
    BitVec.extractLsb'_append_extractLsb'_eq_extractLsb' rfl
  have hall : w.extractLsb' 64 66 ++ bField w = w.extractLsb' 0 130 :=
    BitVec.extractLsb'_append_extractLsb'_eq_extractLsb' rfl
  rw [packRequest, hop, hall, BitVec.extractLsb'_eq_self]

theorem packRequest_toNat (op : BitVec 2) (a b : Bits64) :
    (packRequest op a b).toNat = op.toNat * 2 ^ 128 + a.toNat * 2 ^ 64 + b.toNat := by
  rw [packRequest, toNat_append_eq_add, toNat_append_eq_add]
  omega

/-! ### Decoding against encoding -/

/-- The selected operation has the operator code that selected it, and its operands (R39). -/
theorem encode_selectOp (op : BitVec 2) (a b : Bits64) :
    encode (selectOp op a b) = packRequest op a b := by
  have hcode : op = 0b00#2 ∨ op = 0b01#2 ∨ op = 0b10#2 ∨ op = 0b11#2 := by
    revert op
    decide
  obtain rfl | rfl | rfl | rfl := hcode <;> rfl

theorem selectOp_opCode (i : Instr) : selectOp (opCode i) (operandA i) (operandB i) = i := by
  cases i <;> rfl

theorem decode_packRequest (op : BitVec 2) (a b : Bits64) :
    decode (packRequest op a b) = selectOp op a b := by
  rw [decode, opField_packRequest, aField_packRequest, bField_packRequest]

/-- Settles O2: the fields of a packed word are what was packed, and the selector and its code agree. -/
theorem decodeEncodeAgree : Obligations.DecodeEncodeAgree := by
  refine ⟨fun i => ?decodeEncode, fun w => ?encodeDecode⟩
  case decodeEncode => rw [encode, decode_packRequest, selectOp_opCode]
  case encodeDecode => rw [decode, encode_selectOp, packRequest_fields]

/-! ### Numbers as request words (R38, R43) -/

/-- The number of a request word decodes as that word. -/
theorem decodeNumber_toNat (w : RequestWord) : decodeNumber w.toNat = .ok (decode w) := by
  have hw : isRequestNumber w.toNat = true := decide_eq_true w.isLt
  rw [decodeNumber, if_pos hw, BitVec.ofNat_toNat, BitVec.setWidth_eq]

theorem decodeNumber_of_eq {n : Nat} {op : BitVec 2} {a b : Bits64}
    (h : n = op.toNat * 2 ^ 128 + a.toNat * 2 ^ 64 + b.toNat) :
    decodeNumber n = .ok (selectOp op a b) := by
  rw [h, ← packRequest_toNat, decodeNumber_toNat, decode_packRequest]

theorem decodeNumber_of_le {n : Nat} (h : 2 ^ 130 ≤ n) :
    decodeNumber n = .error .notARequestWord := by
  have hn : ¬ isRequestNumber n = true := by
    rw [isRequestNumber, decide_eq_true_iff]
    omega
  rw [decodeNumber, if_neg hn]

/-- Settles O1: the number of the fields is the packed word's, at each of the four selectors. -/
theorem decodeSelectsByOp : Obligations.DecodeSelectsByOp := by
  refine ⟨fun a b => ⟨?add, ?sub, ?mul, ?div⟩, fun n => decodeNumber_of_le⟩
  case add => exact decodeNumber_of_eq (op := 0b00#2) (by simp)
  case sub => exact decodeNumber_of_eq (op := 0b01#2) (by simp)
  case mul => exact decodeNumber_of_eq (op := 0b10#2) (by simp)
  case div => exact decodeNumber_of_eq (op := 0b11#2) (by simp)

/-- Settles O3: the four decodings are the tests' (rows E1 to E4), and encoding gives a decoded word back. -/
theorem specWordsDecode : Obligations.SpecWordsDecode := by
  refine ⟨Machine.test_decode_add, Machine.test_decode_sub, Machine.test_decode_mul,
    Machine.test_decode_div, ?_⟩
  rw [← Machine.test_decode_div, decodeEncodeAgree.2]

end Sys2Proof
end

section
/-! The response word: tags and their slots, and the host's reading of it (spec/30_encoding.md R44 to R47). -/

namespace Sys2Proof

/-! ### The fields of a response word (R47) -/

@[simp] theorem resultField_packResponse (result : Bits64) (count : BitVec 3) (tags : BitVec 45) :
    resultField (packResponse result count tags) = result := by
  rw [resultField, packResponse, BitVec.extractLsb'_append_eq_of_le (by decide)]
  exact BitVec.extractLsb'_append_eq_left

@[simp] theorem tagCountField_packResponse (result : Bits64) (count : BitVec 3) (tags : BitVec 45) :
    tagCountField (packResponse result count tags) = count := by
  rw [tagCountField, packResponse, BitVec.extractLsb'_append_eq_of_le (by decide)]
  exact BitVec.extractLsb'_append_eq_right

@[simp] theorem tagsField_packResponse (result : Bits64) (count : BitVec 3) (tags : BitVec 45) :
    tagsField (packResponse result count tags) = tags :=
  BitVec.extractLsb'_append_eq_right

/-- The three fields are all of a response word. -/
@[simp] theorem packResponse_fields (w : ResponseWord) :
    packResponse (resultField w) (tagCountField w) (tagsField w) = w := by
  have hupper : resultField w ++ tagCountField w = w.extractLsb' 45 67 :=
    BitVec.extractLsb'_append_extractLsb'_eq_extractLsb' rfl
  have hall : w.extractLsb' 45 67 ++ tagsField w = w.extractLsb' 0 112 :=
    BitVec.extractLsb'_append_extractLsb'_eq_extractLsb' rfl
  rw [packResponse, hupper, hall, BitVec.extractLsb'_eq_self]

theorem packResponse_toNat (result : Bits64) (count : BitVec 3) (tags : BitVec 45) :
    (packResponse result count tags).toNat =
      result.toNat * 2 ^ 48 + count.toNat * 2 ^ 45 + tags.toNat := by
  rw [packResponse, toNat_append_eq_add, toNat_append_eq_add]
  omega

theorem tagCount_toNat {tags : List Tag} (h : tags.length ≤ 5) :
    (tagCount tags).toNat = tags.length := by
  rw [tagCount, BitVec.toNat_ofNat]
  omega

/-! ### One slot: a code and an argument (R44, R45) -/

theorem tagSlot_toNat (t : Tag) :
    (tagSlot t).toNat = (tagCode t).toNat * 64 + (tagArgument t).toNat :=
  toNat_append_eq_add _ _

@[simp] theorem normalizeLeft_wellFormed_iff (n : Nat) :
    (Tag.normalizeLeft n).wellFormed = true ↔ 1 ≤ n ∧ n ≤ 52 := by
  simp [Tag.wellFormed]

@[simp] theorem normalizeRight_wellFormed_iff (n : Nat) :
    (Tag.normalizeRight n).wellFormed = true ↔ 1 ≤ n ∧ n ≤ 50 := by
  simp [Tag.wellFormed]

/-- A shift count that fits the six bits of the argument is read back from them. -/
theorem shiftTag_ofNat {tagOf : Nat → Tag} {n : Nat} (hn : n < 2 ^ 6)
    (h : (tagOf n).wellFormed = true) : shiftTag (tagOf (BitVec.ofNat 6 n).toNat) = .ok (tagOf n) := by
  rw [BitVec.toNat_ofNat, Nat.mod_eq_of_lt hn, shiftTag, if_pos h]

theorem slotCode_append (code : BitVec 3) (arg : BitVec 6) : (code ++ arg).extractLsb' 6 3 = code :=
  BitVec.extractLsb'_append_eq_left

theorem slotArgument_append (code : BitVec 3) (arg : BitVec 6) :
    (code ++ arg).extractLsb' 0 6 = arg :=
  BitVec.extractLsb'_append_eq_right

/-- The slot of a tag in its range reads as that tag. -/
theorem decodeTag_tagSlot {t : Tag} (h : t.wellFormed = true) : decodeTag (tagSlot t) = .ok t := by
  rw [tagSlot, decodeTag, slotCode_append, slotArgument_append]
  cases t with
  | normalizeLeft n =>
    have hn := (normalizeLeft_wellFormed_iff n).1 h
    exact shiftTag_ofNat (by omega) h
  | normalizeRight n =>
    have hn := (normalizeRight_wellFormed_iff n).1 h
    exact shiftTag_ofNat (by omega) h
  | align | add | subAB | subBA | roundCarry | roundKeep => rfl

/-- A tag without an argument is read only from its own slot. -/
theorem tagSlot_of_plainTag {t u : Tag} {arg : BitVec 6} (hwf : t.wellFormed = true)
    (harg : tagArgument t = 0#6) (h : plainTag t arg.toNat = .ok u) :
    u.wellFormed = true ∧ tagSlot u = tagCode t ++ arg := by
  rw [plainTag] at h
  by_cases hzero : arg.toNat = 0
  · rw [if_pos hzero] at h
    obtain rfl := Except.ok.inj h
    exact ⟨hwf, by rw [tagSlot, harg, BitVec.eq_of_toNat_eq (y := 0#6) hzero]⟩
  · rw [if_neg hzero] at h
    cases h

/-- A normalise tag is read only from its own slot, and only in its range. -/
theorem tagSlot_of_shiftTag {t u : Tag} {arg : BitVec 6} (harg : tagArgument t = arg)
    (h : shiftTag t = .ok u) : u.wellFormed = true ∧ tagSlot u = tagCode t ++ arg := by
  rw [shiftTag] at h
  by_cases hwf : t.wellFormed = true
  · rw [if_pos hwf] at h
    obtain rfl := Except.ok.inj h
    exact ⟨hwf, by rw [tagSlot, harg]⟩
  · rw [if_neg hwf] at h
    cases h

theorem tagCode_cases (code : BitVec 3) :
    code = 0b000#3 ∨ code = 0b001#3 ∨ code = 0b010#3 ∨ code = 0b011#3 ∨
    code = 0b100#3 ∨ code = 0b101#3 ∨ code = 0b110#3 ∨ code = 0b111#3 := by
  revert code
  decide

/-- What a slot reads as is in its range, and its slot is that slot: by the eight codes. -/
theorem tagSlot_of_decodeTag {slot : BitVec 9} {t : Tag} (h : decodeTag slot = .ok t) :
    t.wellFormed = true ∧ tagSlot t = slot := by
  have hslot : slot.extractLsb' 6 3 ++ slot.extractLsb' 0 6 = slot :=
    (BitVec.extractLsb'_append_extractLsb'_eq_extractLsb' rfl).trans BitVec.extractLsb'_eq_self
  rw [decodeTag] at h
  rw [← hslot]
  generalize slot.extractLsb' 6 3 = code at h ⊢
  generalize slot.extractLsb' 0 6 = arg at h ⊢
  have hofNat : BitVec.ofNat 6 arg.toNat = arg := by simp
  obtain rfl | rfl | rfl | rfl | rfl | rfl | rfl | rfl := tagCode_cases code
  · exact tagSlot_of_plainTag (t := .align) rfl rfl h
  · exact tagSlot_of_plainTag (t := .add) rfl rfl h
  · exact tagSlot_of_plainTag (t := .subAB) rfl rfl h
  · exact tagSlot_of_plainTag (t := .subBA) rfl rfl h
  · exact tagSlot_of_shiftTag (t := .normalizeLeft arg.toNat) hofNat h
  · exact tagSlot_of_shiftTag (t := .normalizeRight arg.toNat) hofNat h
  · exact tagSlot_of_plainTag (t := .roundCarry) rfl rfl h
  · exact tagSlot_of_plainTag (t := .roundKeep) rfl rfl h

theorem decodeTag_eq_ok_iff (slot : BitVec 9) (t : Tag) :
    decodeTag slot = .ok t ↔ t.wellFormed = true ∧ tagSlot t = slot := by
  refine ⟨tagSlot_of_decodeTag, ?_⟩
  rintro ⟨hwf, rfl⟩
  exact decodeTag_tagSlot hwf

/-! ### The five slots (R45) -/

theorem slotAt_of_lt {tags : List Tag} {i : Nat} (h : i < tags.length) :
    slotAt tags i = tagSlot tags[i] := by
  rw [slotAt, List.getElem?_eq_getElem h]

theorem slotAt_of_le {tags : List Tag} {i : Nat} (h : tags.length ≤ i) : slotAt tags i = 0#9 := by
  rw [slotAt, List.getElem?_eq_none h]

theorem packSlots_toNat (tags : List Tag) :
    (packSlots tags).toNat = (slotAt tags 4).toNat * 2 ^ 36 + (slotAt tags 3).toNat * 2 ^ 27 +
      (slotAt tags 2).toNat * 2 ^ 18 + (slotAt tags 1).toNat * 2 ^ 9 + (slotAt tags 0).toNat := by
  simp only [packSlots, toNat_append_eq_add]
  omega

theorem extractLsb'_packSlots (tags : List Tag) {i : Nat} (h : i < 5) :
    (packSlots tags).extractLsb' (9 * i) 9 = slotAt tags i := by
  apply BitVec.eq_of_toNat_eq
  rw [BitVec.extractLsb'_toNat, Nat.shiftRight_eq_div_pow, packSlots_toNat]
  interval_cases i <;> omega

theorem slotsOf_eq_map (tags : BitVec 45) :
    slotsOf tags = (List.range 5).map fun i => tags.extractLsb' (9 * i) 9 := rfl

/-- The slots of a step list: its tags' slots, then zeros. -/
theorem slotsOf_packSlots {tags : List Tag} (h : tags.length ≤ 5) :
    slotsOf (packSlots tags) = tags.map tagSlot ++ List.replicate (5 - tags.length) 0#9 := by
  rw [slotsOf_eq_map]
  apply List.ext_getElem
  · simp only [List.length_map, List.length_range, List.length_append, List.length_replicate]
    omega
  · intro i hi hi'
    rw [List.length_map, List.length_range] at hi
    rw [List.getElem_map, List.getElem_range, extractLsb'_packSlots tags hi]
    by_cases hlt : i < tags.length
    · rw [slotAt_of_lt hlt, List.getElem_append_left (by simpa using hlt), List.getElem_map]
    · rw [slotAt_of_le (Nat.le_of_not_lt hlt), List.getElem_append_right (by simpa using hlt),
        List.getElem_replicate]

/-- The five slots are all of the tag bits. -/
theorem slotsOf_injective {x y : BitVec 45} (h : slotsOf x = slotsOf y) : x = y := by
  have hsum : ∀ z : BitVec 45, z.toNat = (z.extractLsb' 36 9).toNat * 2 ^ 36 +
      (z.extractLsb' 27 9).toNat * 2 ^ 27 + (z.extractLsb' 18 9).toNat * 2 ^ 18 +
      (z.extractLsb' 9 9).toNat * 2 ^ 9 + (z.extractLsb' 0 9).toNat := by
    intro z
    simp only [BitVec.extractLsb'_toNat, Nat.shiftRight_eq_div_pow]
    omega
  simp only [slotsOf, List.cons.injEq] at h
  obtain ⟨h0, h1, h2, h3, h4, -⟩ := h
  apply BitVec.eq_of_toNat_eq
  rw [hsum x, hsum y, h0, h1, h2, h3, h4]

/-! ### Reading the slots (R45) -/

theorem readSlots_zero_iff (slots : List (BitVec 9)) (tags : List Tag) :
    readSlots 0 slots = .ok tags ↔ tags = [] ∧ slots = List.replicate slots.length 0#9 := by
  induction slots with
  | nil => simp [readSlots, eq_comm]
  | cons x xs ih =>
    by_cases hx : x = 0#9
    · simp [readSlots, hx, ih, List.replicate_succ]
    · simp [readSlots, hx, List.replicate_succ]

theorem readSlots_succ_iff (n : Nat) (x : BitVec 9) (xs : List (BitVec 9)) (tags : List Tag) :
    readSlots (n + 1) (x :: xs) = .ok tags ↔
      ∃ t ts, tags = t :: ts ∧ decodeTag x = .ok t ∧ readSlots n xs = .ok ts := by
  rw [readSlots]
  cases hx : decodeTag x with
  | error e => simp
  | ok t =>
    cases hxs : readSlots n xs with
    | error e => simp
    | ok ts => simp [eq_comm]

/-- The first `n` slots read as `tags` exactly when they are the slots of `n` tags in their ranges and all
the other slots are zero. -/
theorem readSlots_eq_ok_iff {n : Nat} {slots : List (BitVec 9)} (hn : n ≤ slots.length)
    (tags : List Tag) :
    readSlots n slots = .ok tags ↔
      tags.length = n ∧ tags.all Tag.wellFormed = true ∧
        slots = tags.map tagSlot ++ List.replicate (slots.length - n) 0#9 := by
  induction n generalizing slots tags with
  | zero =>
    rw [readSlots_zero_iff, List.length_eq_zero_iff]
    refine and_congr_right ?_
    rintro rfl
    simp
  | succ n ih =>
    obtain - | ⟨x, xs⟩ := slots
    · simp at hn
    rw [readSlots_succ_iff]
    obtain - | ⟨t, ts⟩ := tags
    · simp
    have hxs : n ≤ xs.length := by simpa using hn
    simp only [List.cons.injEq, List.length_cons, Nat.add_right_cancel_iff, List.all_cons,
      Bool.and_eq_true, List.map_cons, List.cons_append, Nat.add_sub_add_right]
    constructor
    · rintro ⟨t, ts, ⟨rfl, rfl⟩, ht, hts⟩
      obtain ⟨hwf, hslot⟩ := (decodeTag_eq_ok_iff x _).1 ht
      obtain ⟨hlen, hall, hslots⟩ := (ih hxs _).1 hts
      exact ⟨hlen, ⟨hwf, hall⟩, hslot.symm, hslots⟩
    · rintro ⟨hlen, ⟨hwf, hall⟩, hslot, hslots⟩
      exact ⟨t, ts, ⟨rfl, rfl⟩, (decodeTag_eq_ok_iff x t).2 ⟨hwf, hslot.symm⟩,
        (ih hxs ts).2 ⟨hlen, hall, hslots⟩⟩

/-- The tag bits of a step list of at most five tags are the only ones that read as it. -/
theorem readSlots_slotsOf_iff {n : Nat} (hn : n ≤ 5) (bits : BitVec 45) (tags : List Tag) :
    readSlots n (slotsOf bits) = .ok tags ↔
      tags.length = n ∧ tags.all Tag.wellFormed = true ∧ packSlots tags = bits := by
  rw [readSlots_eq_ok_iff hn]
  refine and_congr_right fun hlen => and_congr_right fun _ => ?_
  have hslots : slotsOf (packSlots tags) = tags.map tagSlot ++ List.replicate (5 - n) 0#9 := by
    rw [slotsOf_packSlots (by omega), hlen]
  exact ⟨fun h => slotsOf_injective (hslots.trans h.symm), fun h => h ▸ hslots⟩

/-! ### Reading a response word -/

theorem isStepList_iff (tags : List Tag) :
    isStepList tags = true ↔ (tags.map Tag.stage).Sublist [0, 1, 2, 3, 3] :=
  List.isSublist_iff_sublist

/-- R46: a step list has at most five tags. -/
theorem length_le_five_of_isStepList {tags : List Tag} (h : isStepList tags = true) :
    tags.length ≤ 5 := by
  simpa using ((isStepList_iff tags).1 h).length_le

theorem wellFormed_iff (r : Response) :
    r.wellFormed = true ↔ isStepList r.tags = true ∧ r.tags.all Tag.wellFormed = true := by
  rw [Response.wellFormed, Bool.and_eq_true]

theorem decodeResponse_eq_ok_iff (w : ResponseWord) (r : Response) :
    decodeResponse w = .ok r ↔
      (tagCountField w).toNat ≤ 5 ∧
      readSlots (tagCountField w).toNat (slotsOf (tagsField w)) = .ok r.tags ∧
      isStepList r.tags = true ∧ resultField w = r.result := by
  rw [decodeResponse]
  by_cases hcount : 5 < (tagCountField w).toNat
  · simp [hcount]
  rw [if_neg hcount]
  cases hslots : readSlots (tagCountField w).toNat (slotsOf (tagsField w)) with
  | error e => simp
  | ok ts =>
    obtain ⟨result, tags⟩ := r
    simp only [Nat.le_of_not_lt hcount, true_and, Except.ok.injEq]
    constructor
    · intro h
      split_ifs at h with hsteps
      cases h
      exact ⟨rfl, hsteps, rfl⟩
    · rintro ⟨rfl, hsteps, hresult⟩
      rw [if_pos hsteps, hresult]

/-- The word of a well-formed response is the one word that reads as it. -/
theorem decodeResponse_eq_ok_iff_encodeResponse (w : ResponseWord) (r : Response) :
    decodeResponse w = .ok r ↔ r.wellFormed = true ∧ encodeResponse r = w := by
  rw [decodeResponse_eq_ok_iff, wellFormed_iff]
  constructor
  · rintro ⟨hcount, hslots, hsteps, hresult⟩
    obtain ⟨hlen, hall, hbits⟩ := (readSlots_slotsOf_iff hcount _ _).1 hslots
    refine ⟨⟨hsteps, hall⟩, ?_⟩
    rw [encodeResponse, tagCount, hlen, BitVec.ofNat_toNat, BitVec.setWidth_eq, hbits, ← hresult,
      packResponse_fields]
  · rintro ⟨⟨hsteps, hall⟩, rfl⟩
    have hlen := length_le_five_of_isStepList hsteps
    rw [encodeResponse, tagCountField_packResponse, tagsField_packResponse,
      resultField_packResponse, tagCount_toNat hlen]
    exact ⟨hlen, (readSlots_slotsOf_iff hlen _ _).2 ⟨rfl, hall, rfl⟩, hsteps, rfl⟩

/-- Settles O5: the one word that reads as a well-formed response is its own. -/
theorem responseCodecAgrees : Obligations.ResponseCodecAgrees :=
  ⟨fun r h => (decodeResponse_eq_ok_iff_encodeResponse _ r).2 ⟨h, rfl⟩,
    fun w r => (decodeResponse_eq_ok_iff_encodeResponse w r).1⟩

/-- Settles O4: a slot is `code × 64 + argument`, slot `i` stands at bit `9 i`, and the three fields of the
word do not overlap. -/
theorem responseWordLayout : Obligations.ResponseWordLayout := by
  refine ⟨⟨rfl, rfl, rfl, rfl, rfl, rfl, fun n hn => ⟨?left, ?right⟩⟩,
    fun r hlen => ⟨fun i hi => ?used, fun i hi hi5 => ?unused, ?word⟩⟩
  case left =>
    rw [tagSlot_toNat]
    exact congrArg (256 + ·) (Nat.mod_eq_of_lt hn)
  case right =>
    rw [tagSlot_toNat]
    exact congrArg (320 + ·) (Nat.mod_eq_of_lt hn)
  case used => rw [extractLsb'_packSlots _ (by omega), slotAt_of_lt hi]
  case unused => rw [extractLsb'_packSlots _ hi5, slotAt_of_le hi]
  case word => rw [encodeResponse, packResponse_toNat, tagCount_toNat hlen]

end Sys2Proof
end

section
/-! The step lists the unit produces: their tags in order, their arguments in range (spec/30_encoding.md R44,
R46). -/

namespace Sys2Proof.Machine

/-! ### Step lists by stages -/

/-- The tags have their arguments in range, and their stages are some of `stages`, in that order. -/
def StepsWithin (stages : List Nat) (tags : List Tag) : Prop :=
  (tags.map Tag.stage).Sublist stages ∧ tags.all Tag.wellFormed = true

/-- A response is well formed when its tags are within the five stages of R46. -/
theorem wellFormed_iff_stepsWithin (r : Response) :
    r.wellFormed = true ↔ StepsWithin [0, 1, 2, 3, 3] r.tags := by
  rw [wellFormed_iff, isStepList_iff, StepsWithin]

theorem stepsWithin_nil (stages : List Nat) : StepsWithin stages [] :=
  ⟨List.nil_sublist _, rfl⟩

theorem stepsWithin_singleton {t : Tag} (h : t.wellFormed = true) : StepsWithin [t.stage] [t] :=
  ⟨List.Sublist.refl _, by simp [h]⟩

theorem stepsWithin_append {stages stages' : List Nat} {tags tags' : List Tag}
    (h : StepsWithin stages tags) (h' : StepsWithin stages' tags') :
    StepsWithin (stages ++ stages') (tags ++ tags') := by
  obtain ⟨hstages, hargs⟩ := h
  obtain ⟨hstages', hargs'⟩ := h'
  rw [StepsWithin, List.map_append, List.all_append, hargs, hargs']
  exact ⟨hstages.append hstages', rfl⟩

theorem untagged_wellFormed (p : Bits64) : (untagged p).wellFormed = true :=
  (wellFormed_iff_stepsWithin _).2 (stepsWithin_nil _)

/-! ### Pack: a normalise tag and two round tags at most (R58 to R63) -/

theorem stepsWithin_roundBy (main : Nat) (x : Grs) : StepsWithin [3] [(roundBy main x).tag] := by
  obtain ⟨-, h⟩ | ⟨-, h⟩ := roundBy_cases main x <;> rw [h] <;> exact stepsWithin_singleton rfl

theorem stepsWithin_packSubnormal (s : Sign) (main k : Nat) :
    StepsWithin [3] (packSubnormal s main k).tags := by
  rw [packSubnormal]
  split
  · exact stepsWithin_nil _
  · exact stepsWithin_roundBy _ _

theorem stepsWithin_packExponent (s : Sign) (e : Int) (main : Nat) :
    StepsWithin [3] (packExponent s e main).tags := by
  obtain ⟨-, h⟩ | ⟨-, -, h⟩ | ⟨-, h⟩ := packExponent_cases s e main <;> rw [h]
  · exact stepsWithin_nil _
  · exact stepsWithin_nil _
  · exact stepsWithin_packSubnormal _ _ _

/-- The shift of pack step 2 is in its range: at least 1, left by 52 at most when bit 3 or a higher one is
set, right by 50 at most below `2^106`. -/
theorem stepsWithin_normalise (e : Int) {m : Nat} (hlow : m >>> 3 ≠ 0) (hhigh : m < 2 ^ 106) :
    StepsWithin [2] (normalise e m).tags := by
  rw [Nat.shiftRight_eq_div_pow] at hlow
  have hpos : m ≠ 0 := by
    rintro rfl
    exact hlow (Nat.zero_div _)
  have h3 : 3 ≤ msb m := (Nat.le_log2 hpos).2 (by omega)
  have h105 : msb m < 106 := (Nat.log2_lt hpos).2 hhigh
  rw [normalise]
  split_ifs
  · exact stepsWithin_singleton ((normalizeRight_wellFormed_iff _).2 (by omega))
  · exact stepsWithin_singleton ((normalizeLeft_wellFormed_iff _).2 (by omega))
  · exact stepsWithin_nil _

theorem stepsWithin_pack (s : Sign) (e : Int) {m : Nat} (hm : m < 2 ^ 106) :
    StepsWithin [2, 3, 3] (pack s e m).tags := by
  by_cases hmain : m >>> 3 = 0
  · rw [pack, if_pos hmain]
    exact stepsWithin_nil _
  · rw [pack_of_main s e m hmain, emitBefore_tags]
    exact stepsWithin_append
      (stepsWithin_append (stepsWithin_normalise e hmain hm) (stepsWithin_roundBy _ _))
      (stepsWithin_packExponent _ _ _)

/-- A response that is packed with no tag before is well formed. -/
theorem pack_wellFormed (s : Sign) (e : Int) {m : Nat} (hm : m < 2 ^ 106) :
    (pack s e m).wellFormed = true :=
  (wellFormed_iff_stepsWithin _).2 (stepsWithin_append (stepsWithin_nil [0, 1]) (stepsWithin_pack s e hm))

/-! ### Bounds of the significands -/

theorem fracField_lt (p : Bits64) : fracField p < 2 ^ 52 := BitVec.isLt _

theorem expField_lt (p : Bits64) : expField p < 2 ^ 11 := BitVec.isLt _

/-- A significand has at most 53 bits, and is zero only for a zero (R50, R51). -/
theorem significand_of_unpack_finite {p : Bits64} {s : Sign} {e : Int} {m : Nat} {sub : Bool}
    (h : unpack p = .finite s e m sub) :
    m < 2 ^ 53 ∧ ((Unpacked.finite s e m sub).isZero = false → m ≠ 0) := by
  have hfrac := fracField_lt p
  have hexp := expField_lt p
  obtain hzero | hmax | ⟨h1, h2⟩ : expField p = 0 ∨ expField p = 0x7FF ∨
      (1 ≤ expField p ∧ expField p ≤ 2046) := by omega
  · rw [unpack_of_expField_zero hzero] at h
    cases h
    exact ⟨by omega, by simp [Unpacked.isZero]⟩
  · rw [unpack_of_expField_max hmax] at h
    split at h <;> cases h
  · rw [unpack_of_expField_normal h1 h2] at h
    cases h
    exact ⟨by omega, fun _ => by omega⟩

/-- Widening leaves at most 53 bits. -/
theorem widen_significand_lt {m : Nat} (e : Int) (hm : m < 2 ^ 53) :
    (widen m e).significand < 2 ^ 53 := by
  rw [widen]
  split_ifs with hsmall
  · obtain rfl | hpos := Nat.eq_zero_or_pos m
    · simp
    have hmsb : msb m < 52 := (Nat.log2_lt hpos.ne').2 hsmall
    have hlt : m <<< (52 - msb m) < 2 ^ (msb m + 1) * 2 ^ (52 - msb m) := by
      rw [Nat.shiftLeft_eq]
      exact Nat.mul_lt_mul_of_pos_right (lt_two_pow_msb_succ m) (Nat.two_pow_pos _)
    rwa [← Nat.pow_add, show msb m + 1 + (52 - msb m) = 53 by omega] at hlt
  · exact hm

/-- Widening sets bit 52 of every significand but zero (R82). -/
theorem le_widen_significand {m : Nat} (e : Int) (hm : m ≠ 0) :
    2 ^ 52 ≤ (widen m e).significand := by
  rw [widen]
  split_ifs with hsmall
  · have hmsb : msb m < 52 := (Nat.log2_lt hm).2 hsmall
    have hle : 2 ^ msb m * 2 ^ (52 - msb m) ≤ m <<< (52 - msb m) := by
      rw [Nat.shiftLeft_eq]
      exact Nat.mul_le_mul_right _ (two_pow_msb_le (Nat.pos_of_ne_zero hm))
    rwa [← Nat.pow_add, show msb m + (52 - msb m) = 52 by omega] at hle
  · exact Nat.le_of_not_lt hsmall

theorem srs_lt_two_pow {m k n : Nat} (hn : n ≠ 0) (hm : m < 2 ^ n) : srs m k < 2 ^ n := by
  have hdiv : m / 2 ^ k < 2 ^ n := Nat.lt_of_le_of_lt (Nat.div_le_self _ _) hm
  by_cases hexact : m % 2 ^ k = 0
  · rwa [srs_exact hexact]
  · rw [srs_sticky hexact]
    exact Nat.or_lt_two_pow hdiv (Nat.one_lt_two_pow hn)

/-- Both aligned magnitudes keep their 53 bits and the three GRS bits (R74, R75). -/
theorem alignOperands_lt (eA eB : Int) {mA mB : Nat} (hA : mA < 2 ^ 53) (hB : mB < 2 ^ 53) :
    (alignOperands eA mA eB mB).mA < 2 ^ 56 ∧ (alignOperands eA mA eB mB).mB < 2 ^ 56 := by
  have hshift : ∀ {m : Nat}, m < 2 ^ 53 → m <<< 3 < 2 ^ 56 := by
    intro m hm
    rw [Nat.shiftLeft_eq]
    omega
  rw [alignOperands]
  split
  · exact ⟨hshift hA, srs_lt_two_pow (by decide) (hshift hB)⟩
  · exact ⟨srs_lt_two_pow (by decide) (hshift hA), hshift hB⟩

/-- The quotient of widened significands has at most 60 bits (R92). -/
theorem longDivide_lt {mA mB : Nat} (hA : mA < 2 ^ 53) (hB : 2 ^ 52 ≤ mB) :
    longDivide mA mB < 2 ^ 60 := by
  have hdiv : (mA <<< 59) / mB < 2 ^ 60 := by
    rw [Nat.div_lt_iff_lt_mul (by omega), Nat.shiftLeft_eq]
    omega
  rw [longDivide]
  split
  · exact Nat.or_lt_two_pow hdiv (by decide)
  · exact hdiv

/-! ### The operations -/

theorem stepsWithin_alignTag (d : Nat) : StepsWithin [0] (alignTag d) := by
  rw [alignTag]
  split
  · exact stepsWithin_singleton rfl
  · exact stepsWithin_nil _

theorem stepsWithin_alignOperands (eA eB : Int) (mA mB : Nat) :
    StepsWithin [0] (alignOperands eA mA eB mB).tags := by
  rw [alignOperands]
  split <;> exact stepsWithin_alignTag _

/-- The tags of the alignment, one magnitude tag and those of pack stand in the order of R46. -/
theorem emitBefore_pack_wellFormed {tags : List Tag} {t : Tag} (htags : StepsWithin [0] tags)
    (hstage : t.stage = 1) (hwf : t.wellFormed = true) (s : Sign) (e : Int) {m : Nat}
    (hm : m < 2 ^ 106) :
    (emitBefore (tags ++ [t]) (pack s e m)).wellFormed = true :=
  (wellFormed_iff_stepsWithin _).2 (stepsWithin_append
    (stepsWithin_append htags (hstage ▸ stepsWithin_singleton hwf)) (stepsWithin_pack s e hm))

theorem combineMagnitudes_wellFormed (sA sB : Sign) {x : Aligned} (htags : StepsWithin [0] x.tags)
    (hA : x.mA < 2 ^ 56) (hB : x.mB < 2 ^ 56) : (combineMagnitudes sA sB x).wellFormed = true := by
  rw [combineMagnitudes]
  split_ifs
  · exact emitBefore_pack_wellFormed htags rfl rfl _ _ (by omega)
  · exact emitBefore_pack_wellFormed htags rfl rfl _ _ (by omega)
  · exact emitBefore_pack_wellFormed htags rfl rfl _ _ (by omega)
  · rw [wellFormed_iff_stepsWithin]
    simpa using stepsWithin_append htags (stepsWithin_nil [1, 2, 3, 3])

/-- ADDSUB answers without a tag or combines two aligned magnitudes. -/
theorem addSub_wellFormed (p : Params) (a b : Bits64) (subtract : Bool) :
    (addSub p a b subtract).wellFormed = true := by
  rw [addSub]
  split
  · exact untagged_wellFormed _
  · exact untagged_wellFormed _
  · split <;> exact untagged_wellFormed _
  · exact untagged_wellFormed _
  · exact untagged_wellFormed _
  · next sA eA mA subA sB eB mB subB hA hB =>
    dsimp only
    split
    · exact untagged_wellFormed _
    · obtain ⟨hmA, hmB⟩ := alignOperands_lt eA eB (significand_of_unpack_finite hA).1
        (significand_of_unpack_finite hB).1
      exact combineMagnitudes_wellFormed _ _ (stepsWithin_alignOperands _ _ _ _) hmA hmB

theorem multiplyFinite_wellFormed (s : Sign) {A B : Scaled} (hA : A.significand < 2 ^ 53)
    (hB : B.significand < 2 ^ 53) : (multiplyFinite s A B).wellFormed = true :=
  pack_wellFormed s _ (calc
    A.significand * B.significand < 2 ^ 53 * 2 ^ 53 := Nat.mul_lt_mul'' hA hB
    _ = 2 ^ 106 := by decide)

theorem mulResponse_wellFormed (p : Params) (a b : Bits64) :
    (mulResponse p a b).wellFormed = true := by
  rw [mulResponse]
  split
  · exact untagged_wellFormed _
  · exact untagged_wellFormed _
  · exact untagged_wellFormed _
  · split <;> exact untagged_wellFormed _
  · split <;> exact untagged_wellFormed _
  · next sA eA mA subA sB eB mB subB hA hB =>
    split
    · exact untagged_wellFormed _
    · exact multiplyFinite_wellFormed _ (widen_significand_lt eA (significand_of_unpack_finite hA).1)
        (widen_significand_lt eB (significand_of_unpack_finite hB).1)

theorem divideFinite_wellFormed (s : Sign) {A B : Scaled} (hA : A.significand < 2 ^ 53)
    (hB : 2 ^ 52 ≤ B.significand) : (divideFinite s A B).wellFormed = true :=
  pack_wellFormed s _ (Nat.lt_trans (longDivide_lt hA hB) (by decide))

theorem divResponse_wellFormed (p : Params) (a b : Bits64) :
    (divResponse p a b).wellFormed = true := by
  rw [divResponse]
  split
  · exact untagged_wellFormed _
  · exact untagged_wellFormed _
  · exact untagged_wellFormed _
  · exact untagged_wellFormed _
  · exact untagged_wellFormed _
  · next sA eA mA subA sB eB mB subB hA hB =>
    dsimp only
    split_ifs with hzeros hzeroB hzeroA
    · exact untagged_wellFormed _
    · exact untagged_wellFormed _
    · exact untagged_wellFormed _
    · have hmB : mB ≠ 0 := (significand_of_unpack_finite hB).2 (Bool.eq_false_iff.2 hzeroB)
      exact divideFinite_wellFormed _ (widen_significand_lt eA (significand_of_unpack_finite hA).1)
        (le_widen_significand eB hmB)

theorem respond_wellFormed (p : Params) (i : Instr) : (respond p i).wellFormed = true := by
  cases i with
  | add a b => exact addSub_wellFormed p a b false
  | sub a b => exact addSub_wellFormed p a b true
  | mul a b => exact mulResponse_wellFormed p a b
  | div a b => exact divResponse_wellFormed p a b

/-- Settles O23: every request completes with `respond`, which is well formed for each operation. -/
theorem stepListsWellFormed : Obligations.StepListsWellFormed := by
  intro i s
  have hwf := respond_wellFormed Config.params i
  exact ⟨respond Config.params i, exec_eq_enqueue i s, hwf,
    length_le_five_of_isStepList ((wellFormed_iff _).1 hwf).1⟩

end Sys2Proof.Machine
end

section
/-! The text forms: patterns and requests as the host writes them (spec/30_encoding.md R40, R48). -/

namespace Sys2Proof.Machine

/-! ### Numbers as digits -/

/-- The last `count` digits of a number, most significant first. -/
def digitsText (base : Nat) (char : Nat → Char) : Nat → Nat → List Char
  | 0, _ => []
  | count + 1, n => digitsText base char count (n / base) ++ [char (n % base)]

theorem digitsText_eq_map (base : Nat) (char : Nat → Char) (count n : Nat) :
    digitsText base char count n =
      (List.range count).map fun i => char (n / base ^ (count - 1 - i) % base) := by
  induction count generalizing n with
  | zero => rfl
  | succ count ih =>
    rw [digitsText, ih, List.range_succ, List.map_append]
    congr 1
    · refine List.map_congr_left fun i hi => ?_
      have hi : i < count := List.mem_range.1 hi
      rw [Nat.div_div_eq_div_mul, ← Nat.pow_succ',
        show count + 1 - 1 - i = (count - 1 - i).succ by omega]
    · simp

@[simp] theorem digitsText_length (base : Nat) (char : Nat → Char) (count n : Nat) :
    (digitsText base char count n).length = count := by
  rw [digitsText_eq_map, List.length_map, List.length_range]

/-- A character that is no digit's stands in no number. -/
theorem notMem_digitsText {base : Nat} (hbase : 0 < base) {char : Nat → Char} {c : Char}
    (hc : ∀ d < base, char d ≠ c) (count n : Nat) : c ∉ digitsText base char count n := by
  rw [digitsText_eq_map]
  intro h
  obtain ⟨i, -, hi⟩ := List.mem_map.1 h
  exact hc _ (Nat.mod_lt _ hbase) hi

/-- The last digit is the last one read. -/
theorem readDigits_snoc_iff (base : Nat) (digit : Char → Option Nat) (acc n : Nat) (cs : List Char)
    (c : Char) :
    readDigits base digit acc (cs ++ [c]) = some n ↔
      ∃ m d, readDigits base digit acc cs = some m ∧ digit c = some d ∧ m * base + d = n := by
  induction cs generalizing acc with
  | nil =>
    simp only [List.nil_append, readDigits]
    cases digit c <;> simp
  | cons x xs ih =>
    rw [List.cons_append, readDigits, readDigits]
    cases digit x with
    | none => simp
    | some d => exact ih _

/-- The digits of a number that fits are read as it. -/
theorem readDigits_digitsText {base : Nat} {digit : Char → Option Nat} {char : Nat → Char}
    (hbase : 0 < base) (hdigit : ∀ d < base, digit (char d) = some d) {count n : Nat}
    (hn : n < base ^ count) : readDigits base digit 0 (digitsText base char count n) = some n := by
  induction count generalizing n with
  | zero =>
    obtain rfl : n = 0 := by simpa using hn
    rfl
  | succ count ih =>
    rw [Nat.pow_succ, Nat.mul_comm] at hn
    exact (readDigits_snoc_iff ..).2 ⟨n / base, n % base, ih (Nat.div_lt_of_lt_mul hn),
      hdigit _ (Nat.mod_lt _ hbase), Nat.div_add_mod' n base⟩

/-- Where every digit has one character, a number is read from no text but its digits. -/
theorem eq_digitsText_of_readDigits {base : Nat} {digit : Char → Option Nat} {char : Nat → Char}
    (hdigit : ∀ c d, digit c = some d → d < base ∧ char d = c) {cs : List Char} {n : Nat}
    (h : readDigits base digit 0 cs = some n) :
    n < base ^ cs.length ∧ cs = digitsText base char cs.length n := by
  induction cs using List.reverseRecOn generalizing n with
  | nil =>
    obtain rfl := Option.some.inj h
    exact ⟨Nat.zero_lt_one, rfl⟩
  | append_singleton cs c ih =>
    obtain ⟨m, d, hm, hd, rfl⟩ := (readDigits_snoc_iff ..).1 h
    obtain ⟨hlt, hcs⟩ := ih hm
    obtain ⟨hbase, hchar⟩ := hdigit c d hd
    have hdiv : (m * base + d) / base = m := by
      rw [Nat.mul_comm, Nat.mul_add_div (by omega), Nat.div_eq_of_lt hbase, Nat.add_zero]
    have hmod : (m * base + d) % base = d := by
      rw [Nat.mul_comm, Nat.mul_add_mod, Nat.mod_eq_of_lt hbase]
    rw [List.length_append, List.length_singleton]
    constructor
    · calc m * base + d < (m + 1) * base := by rw [Nat.add_one_mul]; omega
        _ ≤ base ^ cs.length * base := Nat.mul_le_mul_right _ hlt
        _ = base ^ (cs.length + 1) := (Nat.pow_succ ..).symm
    · rw [digitsText, hdiv, hmod, hchar, ← hcs]

/-! ### Patterns as digits (R40, R48) -/

/-- A binary digit. -/
def binaryChar (d : Nat) : Char := if d = 1 then '1' else '0'

theorem binaryDigit_eq_some_iff (c : Char) (d : Nat) :
    binaryDigit c = some d ↔ d < 2 ∧ binaryChar d = c := by
  constructor
  · intro h
    rw [binaryDigit] at h
    split_ifs at h with h0 h1
    · cases h
      exact ⟨by decide, h0.symm⟩
    · cases h
      exact ⟨by decide, h1.symm⟩
  · rintro ⟨hd, rfl⟩
    interval_cases d <;> rfl

theorem hexDigit_hexChar : ∀ d < 16, hexDigit (hexChar d) = some d := by decide

theorem patternText_eq_digitsText (p : Bits64) : patternText p = digitsText 2 binaryChar 64 p.toNat := by
  rw [patternText, digitsText_eq_map]
  refine List.map_congr_left fun i _ => ?_
  rw [← BitVec.testBit_toNat, Nat.testBit_eq_decide_div_mod_eq, binaryChar]
  simp

theorem hexText_eq_digitsText (p : Bits64) : hexText p = digitsText 16 hexChar 16 p.toNat :=
  (digitsText_eq_map 16 hexChar 16 p.toNat).symm

theorem readPattern_eq_ok_iff (base : Nat) (digit : Char → Option Nat) (count : Nat) (cs : List Char)
    (p : Bits64) :
    readPattern base digit count cs = .ok p ↔
      cs.length = count ∧ ∃ n, readDigits base digit 0 cs = some n ∧ BitVec.ofNat 64 n = p := by
  rw [readPattern]
  split_ifs with hlen
  · cases readDigits base digit 0 cs <;> simp [hlen]
  · simp [hlen]

/-- The digits of a pattern are read as it, in every base in which it fits. -/
theorem readPattern_digitsText {base : Nat} {digit : Char → Option Nat} {char : Nat → Char}
    (hbase : 0 < base) (hdigit : ∀ d < base, digit (char d) = some d) {count : Nat}
    (hcount : 2 ^ 64 ≤ base ^ count) (p : Bits64) :
    readPattern base digit count (digitsText base char count p.toNat) = .ok p :=
  (readPattern_eq_ok_iff ..).2 ⟨digitsText_length .., p.toNat,
    readDigits_digitsText hbase hdigit (Nat.lt_of_lt_of_le p.isLt hcount), by simp⟩

theorem readPattern_hexText (p : Bits64) : readPattern 16 hexDigit 16 (hexText p) = .ok p := by
  rw [hexText_eq_digitsText]
  exact readPattern_digitsText (by decide) hexDigit_hexChar (by decide) p

theorem parsePattern_patternText (p : Bits64) : parsePattern (patternText p) = .ok p := by
  rw [patternText_eq_digitsText]
  exact readPattern_digitsText (by decide)
    (fun d hd => (binaryDigit_eq_some_iff _ d).2 ⟨hd, rfl⟩) (by decide) p

theorem eq_patternText_of_parsePattern {cs : List Char} {p : Bits64} (h : parsePattern cs = .ok p) :
    cs = patternText p := by
  obtain ⟨hlen, n, hn, rfl⟩ := (readPattern_eq_ok_iff ..).1 h
  obtain ⟨hlt, hcs⟩ := eq_digitsText_of_readDigits (fun c d => (binaryDigit_eq_some_iff c d).1) hn
  rw [hlen] at hlt hcs
  rw [patternText_eq_digitsText, BitVec.toNat_ofNat, Nat.mod_eq_of_lt hlt]
  exact hcs

/-- Settles O6: the text form is the 64 binary digits, and each digit has one character. -/
theorem textFormOfPattern : Obligations.TextFormOfPattern := by
  intro p
  refine ⟨?length, fun i hi => ?bits, fun cs => ⟨eq_patternText_of_parsePattern, ?reads⟩⟩
  case length => rw [patternText, List.length_map, List.length_range]
  case bits => rw [patternText, List.getElem?_map, List.getElem?_range hi, Option.map_some]
  case reads =>
    rintro rfl
    exact parsePattern_patternText p

/-! ### Operands and requests in assembler form (R48) -/

theorem parseOperand_hex (p : Bits64) :
    parseOperand ('0' :: 'x' :: hexText p) = .ok (.pattern p) := by
  rw [parseOperand, readPattern_hexText]

theorem parseOperand_binary (p : Bits64) :
    parseOperand ('0' :: 'b' :: patternText p) = .ok (.pattern p) := by
  rw [parseOperand, parsePattern_patternText]

theorem comma_notMem_hexText (p : Bits64) : ',' ∉ hexText p := by
  rw [hexText_eq_digitsText]
  exact notMem_digitsText (by decide) (by decide) _ _

theorem comma_notMem_patternText (p : Bits64) : ',' ∉ patternText p := by
  rw [patternText_eq_digitsText]
  exact notMem_digitsText (by decide) (by decide) _ _

/-- A text without `c` is split off before the first `c`. -/
theorem splitAtChar_append {c : Char} {l : List Char} (h : c ∉ l) (r : List Char) :
    splitAtChar c (l ++ c :: r) = some (l, r) := by
  induction l with
  | nil => rw [List.nil_append, splitAtChar, if_pos rfl]
  | cons x xs ih =>
    obtain ⟨hx, hxs⟩ := not_or.1 (mt List.mem_cons.2 h)
    rw [List.cons_append, splitAtChar, if_neg (Ne.symm hx), ih hxs]

theorem space_notMem_mnemonicText : ∀ op : BitVec 2, ' ' ∉ mnemonicText op := by decide

theorem mnemonicOp_mnemonicText : ∀ op : BitVec 2, mnemonicOp (mnemonicText op) = some op := by decide

/-- `MNEMONIC A, B` is read as its operator and its operands as read. -/
theorem parseRequest_of_operands (op : BitVec 2) {l r : List Char} {a b : OperandText}
    (hcomma : ',' ∉ l) (hl : parseOperand l = .ok a) (hr : parseOperand r = .ok b) :
    parseRequest (mnemonicText op ++ ' ' :: (l ++ ',' :: ' ' :: r)) = .ok ⟨op, a, b⟩ := by
  rw [parseRequest, splitAtChar_append (space_notMem_mnemonicText op)]
  simp only [mnemonicOp_mnemonicText, splitAtChar_append hcomma, parseOperands, hl, hr]

theorem parseRequest_hexRequestText (op : BitVec 2) (a b : Bits64) :
    parseRequest (hexRequestText op a b) = .ok ⟨op, .pattern a, .pattern b⟩ := by
  have hcomma : ',' ∉ '0' :: 'x' :: hexText a := by simp [comma_notMem_hexText]
  have h := parseRequest_of_operands op hcomma (parseOperand_hex a) (parseOperand_hex b)
  simpa [hexRequestText] using h

theorem parseRequest_binaryRequestText (op : BitVec 2) (a b : Bits64) :
    parseRequest (binaryRequestText op a b) = .ok ⟨op, .pattern a, .pattern b⟩ := by
  have hcomma : ',' ∉ '0' :: 'b' :: patternText a := by simp [comma_notMem_patternText]
  have h := parseRequest_of_operands op hcomma (parseOperand_binary a) (parseOperand_binary b)
  simpa [binaryRequestText] using h

/-- Settles O7: both literal forms are read digit by digit, and the word is the fields' own. -/
theorem assemblerReadsRequests : Obligations.AssemblerReadsRequests := by
  intro op a b v
  refine ⟨parseRequest_hexRequestText op a b, parseRequest_binaryRequestText op a b, ?_⟩
  rw [encode_selectOp]
  rfl

end Sys2Proof.Machine
end

section
/-! The classes and the constant patterns, by the fields of a pattern (spec/40_codec.md R50, R51, R55). -/

namespace Sys2Proof.Machine

/-! ### The fields of a pattern as parts of its number (R41) -/

theorem signField_toNat (p : Bits64) : (signField p).toNat = p.toNat / 2 ^ 63 := by
  have h := p.isLt
  rw [signField, BitVec.getLsbD, Nat.toNat_testBit]
  omega

theorem expField_eq (p : Bits64) : expField p = p.toNat / 2 ^ 52 % 2 ^ 11 := by
  rw [expField, BitVec.extractLsb'_toNat, Nat.shiftRight_eq_div_pow]

theorem fracField_eq (p : Bits64) : fracField p = p.toNat % 2 ^ 52 := by
  rw [fracField, BitVec.extractLsb'_toNat, Nat.shiftRight_zero]

theorem toNat_eq_fields (p : Bits64) :
    p.toNat = (signField p).toNat * 2 ^ 63 + expField p * 2 ^ 52 + fracField p := by
  have h := p.isLt
  rw [signField_toNat, expField_eq, fracField_eq]
  omega

theorem magnitudeField_toNat (p : Bits64) :
    (magnitudeField p).toNat = expField p * 2 ^ 52 + fracField p := by
  rw [magnitudeField, BitVec.extractLsb'_toNat, Nat.shiftRight_zero, expField_eq, fracField_eq]
  omega

/-! ### The classes by the fields (R51) -/

theorem expBits_eq_iff (p : Bits64) (n : BitVec 11) :
    p.extractLsb' 52 11 = n ↔ expField p = n.toNat := BitVec.toNat_inj.symm

theorem fracBits_eq_iff (p : Bits64) (n : BitVec 52) :
    p.extractLsb' 0 52 = n ↔ fracField p = n.toNat := BitVec.toNat_inj.symm

theorem isNaN_iff (p : Bits64) : IsNaN p ↔ expField p = 0x7FF ∧ fracField p ≠ 0 :=
  and_congr (expBits_eq_iff p _) (not_congr (fracBits_eq_iff p _))

theorem isInf_iff (p : Bits64) : IsInf p ↔ expField p = 0x7FF ∧ fracField p = 0 :=
  and_congr (expBits_eq_iff p _) (fracBits_eq_iff p _)

theorem isFinite_iff (p : Bits64) : IsFinite p ↔ expField p ≠ 0x7FF :=
  not_congr (expBits_eq_iff p _)

theorem isZero_iff (p : Bits64) : IsZero p ↔ expField p = 0 ∧ fracField p = 0 := by
  have h : IsZero p ↔ (magnitudeField p).toNat = 0 := BitVec.toNat_inj.symm
  rw [h, magnitudeField_toNat]
  omega

/-- The exponent field says which of the three forms of R50 a pattern has. -/
theorem expField_cases (p : Bits64) :
    expField p = 0 ∨ (1 ≤ expField p ∧ expField p ≤ 2046) ∨ expField p = 0x7FF := by
  have h := expField_lt p
  omega

/-- Settles O8, by the exponent field. -/
theorem unpackByFields : Obligations.UnpackByFields := by
  intro p
  refine ⟨fun h => ?nan, fun h => ?infinity, fun h => ?subnormal, fun hmax hzero => ?normal⟩
  case nan =>
    obtain ⟨hexp, hfrac⟩ := (isNaN_iff p).1 h
    rw [unpack_of_expField_max hexp, if_neg hfrac]
    rfl
  case infinity =>
    obtain ⟨hexp, hfrac⟩ := (isInf_iff p).1 h
    rw [unpack_of_expField_max hexp, if_pos hfrac]
    rfl
  case subnormal => exact unpack_of_expField_zero ((expBits_eq_iff p _).1 h)
  case normal =>
    obtain h | ⟨h1, h2⟩ | h := expField_cases p
    · exact absurd ((expBits_eq_iff p 0#11).2 h) hzero
    · exact unpack_of_expField_normal h1 h2
    · exact absurd ((expBits_eq_iff p 0x7FF#11).2 h) hmax

/-! ### The flags of the unpacked value (R51) -/

theorem flags_unpack (p : Bits64) :
    ((unpack p).isNaN = true ↔ IsNaN p) ∧ ((unpack p).isInf = true ↔ IsInf p) ∧
    ((unpack p).isZero = true ↔ IsZero p) := by
  rw [isNaN_iff, isInf_iff, isZero_iff]
  obtain h | ⟨h1, h2⟩ | h := expField_cases p
  · simp [unpack_of_expField_zero h, Unpacked.isNaN, Unpacked.isInf, Unpacked.isZero, h]
  · have hmax : expField p ≠ 0x7FF := by omega
    have hzero : expField p ≠ 0 := by omega
    simp [unpack_of_expField_normal h1 h2, Unpacked.isNaN, Unpacked.isInf, Unpacked.isZero, hmax, hzero]
  · rw [unpack_of_expField_max h]
    by_cases hfrac : fracField p = 0 <;>
      simp [Unpacked.isNaN, Unpacked.isInf, Unpacked.isZero, h, hfrac]

theorem isFinite_iff_not_nan_not_inf (p : Bits64) : IsFinite p ↔ ¬ IsNaN p ∧ ¬ IsInf p := by
  rw [isFinite_iff, isNaN_iff, isInf_iff]
  tauto

theorem isFiniteNonzero_unpack (p : Bits64) :
    (unpack p).isFiniteNonzero = true ↔ IsFiniteNonzero p := by
  obtain ⟨hnan, hinf, hzero⟩ := flags_unpack p
  rw [IsFiniteNonzero, isFinite_iff_not_nan_not_inf, ← hnan, ← hinf, ← hzero]
  simp [Unpacked.isFiniteNonzero]

/-- Of the four flags of an unpacked value exactly one is set. -/
theorem count_flags (u : Unpacked) :
    [u.isNaN, u.isInf, u.isZero, u.isFiniteNonzero].count true = 1 := by
  unfold Unpacked.isFiniteNonzero
  cases u with
  | nan s => rfl
  | infinity s => rfl
  | finite s e m sub => cases h : (Unpacked.finite s e m sub).isZero <;> rfl

/-- Settles O9: the four flags follow the fields, and of four such flags one is set. -/
theorem exactlyOneClass : Obligations.ExactlyOneClass := by
  intro p
  obtain ⟨hnan, hinf, hzero⟩ := flags_unpack p
  exact ⟨hnan, hinf, hzero, isFiniteNonzero_unpack p, count_flags (unpack p)⟩

/-! ### The constant patterns (R55) -/

theorem zeroPattern_toNat (s : Sign) : (zeroPattern s).toNat = s.toNat * 2 ^ 63 := by
  rw [zeroPattern, withSign_toNat, BitVec.toNat_zero, Nat.add_zero]

theorem infPattern_toNat (s : Sign) :
    (infPattern s).toNat = s.toNat * 2 ^ 63 + 0x7FF0000000000000 :=
  withSign_toNat s _

theorem nanMag_toNat (p : Params) :
    p.nanMag.toNat = 0x7FF * 2 ^ 52 + (p.nanFractionPred.val + 1) := by
  have h := p.nanFractionPred.isLt
  have hfrac : (p.nanFractionPred.val + 1) % 2 ^ 52 = p.nanFractionPred.val + 1 :=
    Nat.mod_eq_of_lt (by omega)
  rw [Params.nanMag, toNat_append_eq_add, BitVec.toNat_ofNat, BitVec.toNat_ofNat, hfrac]

theorem isNaN_nanPattern (p : Params) (s : Sign) : IsNaN (nanPattern p s) := by
  have hpred := p.nanFractionPred.isLt
  have hnum : (nanPattern p s).toNat =
      s.toNat * 2 ^ 63 + (0x7FF * 2 ^ 52 + (p.nanFractionPred.val + 1)) := by
    rw [nanPattern, withSign_toNat, nanMag_toNat]
  rw [isNaN_iff, expField_eq, fracField_eq, hnum]
  omega

/-- Settles O11: each constant is its magnitude under its sign, and `NAN_MAG` has a NaN's two fields. -/
theorem constantPatterns : Obligations.ConstantPatterns :=
  ⟨fun s => ⟨zeroPattern_toNat s, infPattern_toNat s⟩,
    fun p s => ⟨withSign_toNat s _, isNaN_nanPattern p s, signField_withSign s _⟩,
    by decide⟩

end Sys2Proof.Machine
end

section
/-! The Aligner by its bits (spec/40_codec.md R53, R54), and pack step 2 (R58). -/

namespace Sys2Proof.Machine

/-! ### The bits below a place -/

/-- Some bit below place `k + 1` is set when bit `k` is, or one below it. -/
theorem mod_two_pow_succ_ne_zero_iff (x k : Nat) :
    x % 2 ^ (k + 1) ≠ 0 ↔ x.testBit k = true ∨ x % 2 ^ k ≠ 0 := by
  have hpos := Nat.two_pow_pos k
  have hbit : x.testBit k = true ↔ x / 2 ^ k % 2 ≠ 0 := by
    rw [Nat.testBit_eq_decide_div_mod_eq, decide_eq_true_iff]
    omega
  rw [hbit, Nat.mod_pow_succ, Ne, Nat.add_eq_zero_iff, Nat.mul_eq_zero]
  omega

/-! ### The bits of a shift with sticky (R54) -/

theorem srs_eq_zero_iff (m k : Nat) : srs m k = 0 ↔ m = 0 := by
  by_cases h : m % 2 ^ k = 0
  · rw [srs_exact h]
    constructor
    · intro hdiv
      rw [← Nat.div_add_mod m (2 ^ k), hdiv, h, Nat.mul_zero]
    · rintro rfl
      exact Nat.zero_div _
  · rw [srs_sticky h]
    constructor
    · intro hor
      exact absurd (Nat.or_eq_zero_iff.1 hor).2 one_ne_zero
    · rintro rfl
      exact absurd (Nat.zero_mod _) h

/-- The sticky bit is dropped by a further shift. -/
theorem srs_shiftRight_one (m k : Nat) : srs m k >>> 1 = m >>> (k + 1) := by
  by_cases h : m % 2 ^ k = 0
  · rw [srs_exact h, ← Nat.shiftRight_eq_div_pow, Nat.shiftRight_add]
  · rw [srs_sticky h, ← Nat.shiftRight_eq_div_pow, Nat.shiftRight_or_distrib, Nat.shiftRight_add]
    exact Nat.or_zero _

theorem testBit_srs_succ (m k i : Nat) : (srs m k).testBit (i + 1) = m.testBit (k + i + 1) := by
  rw [Nat.add_comm i 1, ← Nat.testBit_shiftRight, srs_shiftRight_one, Nat.testBit_shiftRight]
  congr 1
  omega

theorem testBit_srs_zero (m k : Nat) :
    (srs m k).testBit 0 = (m.testBit k || decide (m % 2 ^ k ≠ 0)) := by
  have hdiv : (m / 2 ^ k).testBit 0 = m.testBit k := by rw [Nat.testBit_div_two_pow, Nat.zero_add]
  by_cases h : m % 2 ^ k = 0
  · rw [srs_exact h, hdiv]
    simp [h]
  · rw [srs_sticky h, Nat.testBit_or, hdiv]
    simp [h]

/-- A second shift loses a one exactly when one shift by both amounts does. -/
theorem srs_mod_two_pow_ne_zero_iff (m j k : Nat) :
    srs m j % 2 ^ (k + 1) ≠ 0 ↔ m % 2 ^ (j + k + 1) ≠ 0 := by
  induction k with
  | zero =>
    rw [mod_two_pow_succ_ne_zero_iff, mod_two_pow_succ_ne_zero_iff m, testBit_srs_zero]
    simp [Nat.mod_one]
  | succ k ih =>
    rw [mod_two_pow_succ_ne_zero_iff, mod_two_pow_succ_ne_zero_iff m, testBit_srs_succ, ih]
    rfl

/-- Two shifts with sticky are one, bit by bit. -/
theorem srs_srs (m j k : Nat) : srs (srs m j) k = srs m (j + k) := by
  cases k with
  | zero => rfl
  | succ k =>
    apply Nat.eq_of_testBit_eq
    intro i
    cases i with
    | zero =>
      rw [testBit_srs_zero, testBit_srs_zero, testBit_srs_succ,
        decide_eq_decide.2 (srs_mod_two_pow_ne_zero_iff m j k)]
      rfl
    | succ i =>
      rw [testBit_srs_succ, testBit_srs_succ, testBit_srs_succ]
      congr 1
      omega

/-- Settles O13. -/
theorem srsLaws : Obligations.SrsLaws := fun m j k =>
  ⟨fun _ => srs_shiftRight_one m k, srs_eq_zero_iff m k, testBit_srs_zero m k, srs_srs m j k⟩

/-! ### The highest set bit -/

theorem msb_eq_iff {m n : Nat} (h : m ≠ 0) : msb m = n ↔ 2 ^ n ≤ m ∧ m < 2 ^ (n + 1) :=
  Nat.log2_eq_iff h

theorem msb_mul_two_pow {m : Nat} (h : m ≠ 0) (t : Nat) : msb (m * 2 ^ t) = msb m + t := by
  have hpos := Nat.two_pow_pos t
  obtain ⟨hle, hlt⟩ := (msb_eq_iff h).1 rfl
  rw [msb_eq_iff (Nat.mul_ne_zero h hpos.ne'), Nat.add_right_comm, Nat.pow_add, Nat.pow_add _ (msb m + 1)]
  exact ⟨Nat.mul_le_mul_right _ hle, Nat.mul_lt_mul_of_pos_right hlt hpos⟩

/-- A shift with sticky leaves the highest set bit `k` places lower, when it keeps another bit below it. -/
theorem msb_srs {m k n : Nat} (hn : n ≠ 0) (h : msb m = n + k) : msb (srs m k) = n := by
  have hm : m ≠ 0 := by
    rintro rfl
    have hzero : msb 0 = 0 := rfl
    omega
  have hpos := Nat.two_pow_pos k
  obtain ⟨hle, hlt⟩ := (msb_eq_iff hm).1 h
  rw [Nat.pow_add] at hle
  rw [Nat.add_right_comm, Nat.pow_add] at hlt
  have hle' : 2 ^ n ≤ m / 2 ^ k := (Nat.le_div_iff_mul_le hpos).2 hle
  have hlt' : m / 2 ^ k < 2 ^ (n + 1) := (Nat.div_lt_iff_lt_mul hpos).2 hlt
  rw [msb_eq_iff (mt (srs_eq_zero_iff m k).1 hm)]
  by_cases hexact : m % 2 ^ k = 0
  · rw [srs_exact hexact]
    exact ⟨hle', hlt'⟩
  · rw [srs_sticky hexact]
    exact ⟨hle'.trans Nat.left_le_or,
      Nat.or_lt_two_pow hlt' (Nat.one_lt_two_pow (Nat.succ_ne_zero n))⟩

/-! ### Pack step 2, by where the highest set bit is (R58) -/

theorem normalise_of_right {m sh : Nat} (e : Int) (h : msb m = 55 + sh) (hsh : 0 < sh) :
    normalise e m = ⟨e + sh, srs m sh, [.normalizeRight sh]⟩ := by
  have hshift : msb m - 55 = sh := by omega
  rw [normalise, if_pos (by omega), hshift]

theorem normalise_of_left {m sh : Nat} (e : Int) (h : msb m + sh = 55) (hsh : 0 < sh) :
    normalise e m = ⟨e - sh, m * 2 ^ sh, [.normalizeLeft sh]⟩ := by
  have hshift : 55 - msb m = sh := by omega
  rw [normalise, if_neg (by omega), if_pos (by omega), hshift, ← Nat.shiftLeft_eq]

theorem normalise_of_none {m : Nat} (e : Int) (h : msb m = 55) : normalise e m = ⟨e, m, []⟩ := by
  rw [normalise, if_neg (by omega), if_neg (by omega)]

/-- Where the highest set bit is above bit 55, at it, or below it. -/
theorem msb_cases (m : Nat) :
    (∃ sh, msb m = 55 + sh ∧ 0 < sh) ∨ msb m = 55 ∨ ∃ sh, msb m + sh = 55 ∧ 0 < sh := by
  obtain h | h | h := Nat.lt_trichotomy (msb m) 55
  · exact .inr (.inr ⟨55 - msb m, by omega, by omega⟩)
  · exact .inr (.inl h)
  · exact .inl ⟨msb m - 55, by omega, by omega⟩

theorem normalise_exponent (e : Int) (m : Nat) : (normalise e m).exponent = e + ((msb m : Int) - 55) := by
  obtain ⟨sh, h, hsh⟩ | h | ⟨sh, h, hsh⟩ := msb_cases m
  · rw [normalise_of_right e h hsh]
    simp only
    omega
  · rw [normalise_of_none e h]
    simp only
    omega
  · rw [normalise_of_left e h hsh]
    simp only
    omega

theorem msb_normalise (e : Int) {m : Nat} (hm : m ≠ 0) : msb (normalise e m).significand = 55 := by
  obtain ⟨sh, h, hsh⟩ | h | ⟨sh, h, hsh⟩ := msb_cases m
  · rw [normalise_of_right e h hsh]
    exact msb_srs (by decide) h
  · rwa [normalise_of_none e h]
  · rw [normalise_of_left e h hsh]
    exact (msb_mul_two_pow hm sh).trans h

/-- The normalised significand has 56 bits: 53 of the main value and three GRS bits. -/
theorem normalise_significand_bounds (e : Int) {m : Nat} (hm : m ≠ 0) :
    2 ^ 55 ≤ (normalise e m).significand ∧ (normalise e m).significand < 2 ^ 56 := by
  have hmsb := msb_normalise e hm
  have hne : (normalise e m).significand ≠ 0 := by
    intro h
    rw [h] at hmsb
    cases hmsb
  exact (msb_eq_iff hne).1 hmsb

/-- Settles O15, by where the highest set bit is. -/
theorem normaliseToBit55 : Obligations.NormaliseToBit55 := by
  intro e m hm
  obtain ⟨hle, hlt⟩ := normalise_significand_bounds e (m := m) (by omega)
  refine ⟨hle, hlt, normalise_exponent e m, fun sh h hsh => ?right, fun sh h hsh => ?left, fun h => ?none⟩
  case right =>
    rw [normalise_of_right e h hsh]
    exact ⟨rfl, rfl⟩
  case left =>
    rw [normalise_of_left e h hsh]
    exact ⟨rfl, rfl⟩
  case none =>
    rw [normalise_of_none e h]
    exact ⟨rfl, rfl⟩

end Sys2Proof.Machine
end

section
/-! Rounding to nearest with ties to even, and pack by its steps (spec/40_codec.md R56 to R65). -/

namespace Sys2Proof.Machine

/-! ### Rounding to nearest, ties to even -/

/-- `q` is `x / 2^k` rounded to nearest, a tie to the even one. -/
def RoundsTo (x k q : Nat) : Prop :=
  2 * |(q * 2 ^ k : Int) - x| ≤ 2 ^ k ∧ (2 * |(q * 2 ^ k : Int) - x| = 2 ^ k → q % 2 = 0)

/-- Below the tie, and at it for an even quotient, the quotient is kept. -/
theorem roundsTo_of_remainder_le {x k q r : Nat} (hx : x = q * 2 ^ k + r) (hr : 2 * r ≤ 2 ^ k)
    (heven : 2 * r = 2 ^ k → q % 2 = 0) : RoundsTo x k q := by
  have herr : |(q * 2 ^ k : Int) - x| = (r : Int) := by
    rw [hx, Nat.cast_add, Nat.cast_mul, Nat.cast_pow, Nat.cast_ofNat, sub_add_cancel_left, abs_neg,
      Nat.abs_cast]
  rw [RoundsTo, herr]
  exact_mod_cast And.intro hr heven

/-- Above the tie, and at it for an odd quotient, the quotient is raised. -/
theorem roundsTo_of_le_remainder {x k q r : Nat} (hx : x + r = (q + 1) * 2 ^ k) (hr : 2 * r ≤ 2 ^ k)
    (heven : 2 * r = 2 ^ k → (q + 1) % 2 = 0) : RoundsTo x k (q + 1) := by
  have herr : |((q + 1 : Nat) * 2 ^ k : Int) - x| = (r : Int) := by
    have hcast : ((q + 1 : Nat) * 2 ^ k : Int) = x + r := by exact_mod_cast hx.symm
    rw [hcast, add_sub_cancel_left, Nat.abs_cast]
  rw [RoundsTo, herr]
  exact_mod_cast And.intro hr heven

/-- Zeros appended to a number and dropped again do not change what it rounds to. -/
theorem roundsTo_of_mul_two_pow {x k j q : Nat} (h : RoundsTo (x * 2 ^ j) (k + j) q) :
    RoundsTo x k q := by
  have hpos : (0 : Int) < 2 ^ j := by positivity
  have herr : |(q * 2 ^ (k + j) : Int) - (x * 2 ^ j : Nat)| = |(q * 2 ^ k : Int) - x| * 2 ^ j := by
    rw [Nat.cast_mul, Nat.cast_pow, Nat.cast_ofNat, pow_add, ← mul_assoc, ← sub_mul, abs_mul,
      abs_of_pos hpos]
  rw [RoundsTo, herr, pow_add, ← mul_assoc] at h
  exact ⟨le_of_mul_le_mul_right h.1 hpos, fun htie => h.2 (by rw [htie])⟩

/-- Without a shift nothing is rounded. -/
theorem eq_of_roundsTo_zero {x q : Nat} (h : RoundsTo x 0 q) : q = x := by
  have hle := h.1
  rw [pow_zero, mul_one] at hle
  have hzero : (q : Int) - x = 0 := Int.abs_lt_one_iff.1 (by omega)
  omega

/-! ### The lost bits -/

/-- The triple describes the bits that a shift of `x` by `k + 1` loses: the highest of them, and whether
another of them is set. -/
structure Grs.Describes (g : Grs) (x k : Nat) : Prop where
  guard_eq : g.guard = x.testBit k
  rest_iff : (g.round || g.sticky) = true ↔ x % 2 ^ k ≠ 0

/-- The lowest three bits (R59). -/
theorem grsOf_describes (x : Nat) : (grsOf x).Describes x 2 where
  guard_eq := rfl
  rest_iff := by
    rw [mod_two_pow_succ_ne_zero_iff, mod_two_pow_succ_ne_zero_iff, Bool.or_eq_true]
    simp [grsOf, Nat.mod_one]

/-- The second triple (R63). -/
theorem grsOfShift_describes (x k : Nat) : (grsOfShift x (k + 1)).Describes x k where
  guard_eq := rfl
  rest_iff := by
    obtain _ | _ | k := k
    · simp [grsOfShift, Nat.mod_one]
    · rw [mod_two_pow_succ_ne_zero_iff]
      simp [grsOfShift, Nat.mod_one]
    · rw [mod_two_pow_succ_ne_zero_iff]
      simp [grsOfShift]

/-- The sticky bit of the Aligner stands for all that its shift lost. -/
theorem Grs.Describes.of_srs {g : Grs} {m j k : Nat} (h : g.Describes (srs m j) (k + 1)) :
    g.Describes m (j + (k + 1)) where
  guard_eq := h.guard_eq.trans (testBit_srs_succ m j k)
  rest_iff := h.rest_iff.trans (srs_mod_two_pow_ne_zero_iff m j k)

theorem roundsUp_iff {g : Grs} {x k : Nat} (h : g.Describes x k) (main : Nat) :
    roundsUp main g = true ↔ x.testBit k = true ∧ (x % 2 ^ k ≠ 0 ∨ main % 2 = 1) := by
  rw [roundsUp, h.guard_eq, Bool.and_eq_true, Bool.or_eq_true, h.rest_iff, Nat.testBit_zero,
    decide_eq_true_iff]

/-- The Rounder rounds to nearest, a tie to the even value (R59, R63). -/
theorem roundsTo_roundBy {g : Grs} {x k : Nat} (h : g.Describes x k) :
    RoundsTo x (k + 1) (roundBy (x / 2 ^ (k + 1)) g).main := by
  have hx := Nat.div_add_mod' x (2 ^ (k + 1))
  have hlost := Nat.mod_pow_succ (b := 2) (x := x) (k := k)
  have hlow := Nat.mod_lt x (Nat.two_pow_pos k)
  have hpow : 2 ^ (k + 1) = 2 * 2 ^ k := pow_succ' 2 k
  have hguard : x.testBit k = true ↔ x / 2 ^ k % 2 = 1 := by
    rw [Nat.testBit_eq_decide_div_mod_eq, decide_eq_true_iff]
  obtain ⟨hup, hround⟩ | ⟨hup, hround⟩ := roundBy_cases (x / 2 ^ (k + 1)) g <;> simp only [hround]
  · obtain ⟨hbit, hrest⟩ := (roundsUp_iff h _).1 hup
    rw [hguard.1 hbit, mul_one] at hlost
    refine roundsTo_of_le_remainder (r := 2 ^ k - x % 2 ^ k) ?_ (by omega) (by omega)
    rw [Nat.add_mul]
    omega
  · have hkeep := mt (roundsUp_iff h _).2 (Bool.eq_false_iff.1 hup)
    rw [hguard] at hkeep
    obtain hbit | hbit := Nat.mod_two_eq_zero_or_one (x / 2 ^ k) <;> rw [hbit] at hlost
    · exact roundsTo_of_remainder_le hx.symm (by omega) (by omega)
    · exact roundsTo_of_remainder_le hx.symm (by omega) (by omega)

end Sys2Proof.Machine
end

section
/-! Pack by its steps: a zero main value, the first rounding, the second one, and the ways out
(spec/40_codec.md R56 to R65). -/

namespace Sys2Proof.Machine

/-! ### The patterns that pack builds (R62, R63) -/

theorem withSign_ofNat_toNat (s : Sign) {f : Nat} (hf : f < 2 ^ 63) :
    (withSign s (BitVec.ofNat 63 f)).toNat = s.toNat * 2 ^ 63 + f := by
  rw [withSign_toNat, BitVec.toNat_ofNat, Nat.mod_eq_of_lt hf]

theorem normalPattern_toNat (s : Sign) {be main : Nat} (hbe : be < 2 ^ 11) (hle : 2 ^ 52 ≤ main)
    (hlt : main < 2 ^ 53) :
    (normalPattern s be main).toNat = s.toNat * 2 ^ 63 + be * 2 ^ 52 + (main - 2 ^ 52) := by
  have hmain : main % 2 ^ 52 = main - 2 ^ 52 := by omega
  rw [normalPattern, withSign_toNat, toNat_append_eq_add, BitVec.toNat_ofNat, BitVec.toNat_ofNat,
    Nat.mod_eq_of_lt hbe, hmain, Nat.add_assoc]

/-! ### A zero main value (R57) -/

/-- Settles O14. -/
theorem packOfZeroMain : Obligations.PackOfZeroMain := by
  intro s e m hm
  have hmain : m >>> 3 = 0 := by
    rw [Nat.shiftRight_eq_div_pow]
    omega
  rw [pack, if_pos hmain]

theorem shiftRight_three_ne_zero {m : Nat} (hm : 8 ≤ m) : m >>> 3 ≠ 0 := by
  rw [Nat.shiftRight_eq_div_pow]
  omega

/-! ### The first rounding (R58 to R60) -/

theorem roundBy_main_bounds (main : Nat) (g : Grs) :
    main ≤ (roundBy main g).main ∧ (roundBy main g).main ≤ main + 1 := by
  obtain ⟨-, h⟩ | ⟨-, h⟩ := roundBy_cases main g <;> simp [h]

/-- Dropping the GRS bits rounds to nearest. -/
theorem roundsTo_roundMain (n : Nat) : RoundsTo n 3 (roundMain n).main := by
  rw [roundMain, Nat.shiftRight_eq_div_pow]
  exact roundsTo_roundBy (grsOf_describes n)

/-- After a right shift through the Aligner, the GRS bits round the number that was shifted. -/
theorem roundsTo_roundMain_srs (m sh : Nat) : RoundsTo m (sh + 3) (roundMain (srs m sh)).main := by
  have hmain : srs m sh >>> 3 = m / 2 ^ (sh + 3) := by
    rw [show 3 = 1 + 2 from rfl, Nat.shiftRight_add, srs_shiftRight_one, ← Nat.shiftRight_add,
      Nat.shiftRight_eq_div_pow]
  rw [roundMain, hmain]
  exact roundsTo_roundBy (grsOf_describes (srs m sh)).of_srs

/-- The main value pack rounds to (R58, R59). -/
def mainValue (e : Int) (m : Nat) : Nat := (roundMain (normalise e m).significand).main

theorem mainValue_bounds (e : Int) {m : Nat} (hm : m ≠ 0) :
    2 ^ 52 ≤ mainValue e m ∧ mainValue e m ≤ 2 ^ 53 := by
  obtain ⟨hle, hlt⟩ := normalise_significand_bounds e hm
  obtain ⟨hkeep, hcarry⟩ := roundBy_main_bounds ((normalise e m).significand >>> 3)
    (grsOf (normalise e m).significand)
  rw [mainValue, roundMain]
  rw [Nat.shiftRight_eq_div_pow] at hkeep hcarry ⊢
  omega

/-- A number with bits below place 52 of its normal form is rounded to nearest. -/
theorem roundsTo_mainValue (e : Int) {m : Nat} (h : 52 ≤ msb m) :
    RoundsTo m (msb m - 52) (mainValue e m) := by
  rw [mainValue]
  obtain ⟨sh, hmsb, hsh⟩ | hmsb | ⟨sh, hmsb, hsh⟩ := msb_cases m
  · rw [normalise_of_right e hmsb hsh, show msb m - 52 = sh + 3 by omega]
    exact roundsTo_roundMain_srs m sh
  · rw [normalise_of_none e hmsb, show msb m - 52 = 3 by omega]
    exact roundsTo_roundMain m
  · rw [normalise_of_left e hmsb hsh]
    have hround := roundsTo_roundMain (m * 2 ^ sh)
    rw [show 3 = msb m - 52 + sh by omega] at hround
    exact roundsTo_of_mul_two_pow hround

/-- A shorter number is scaled to 53 bits and nothing is rounded. -/
theorem mainValue_of_msb_lt (e : Int) {m : Nat} (h : msb m < 52) :
    mainValue e m = m * 2 ^ (52 - msb m) := by
  have hround := roundsTo_roundMain (m * 2 ^ (52 - msb m) * 2 ^ 3)
  rw [show 3 = 0 + 3 from rfl] at hround
  rw [mainValue, normalise_of_left e (sh := 52 - msb m + 3) (by omega) (by omega), pow_add, ← mul_assoc]
  exact eq_of_roundsTo_zero (roundsTo_of_mul_two_pow hround)

theorem propagateCarry_of_carry (e : Int) : propagateCarry e (2 ^ 53) = ⟨2 ^ 52, e + 1⟩ := by
  rw [propagateCarry, if_pos rfl, Nat.shiftRight_eq_div_pow]
  rfl

theorem propagateCarry_of_ne {main : Nat} (e : Int) (h : main ≠ 2 ^ 53) :
    propagateCarry e main = ⟨main, e⟩ :=
  if_neg h

/-- After the carry the main value has exactly 53 bits. -/
theorem propagateCarry_spec (e : Int) {q : Nat} (hle : 2 ^ 52 ≤ q) (hle' : q ≤ 2 ^ 53) :
    ∃ main e', propagateCarry e q = ⟨main, e'⟩ ∧
      (if q = 2 ^ 53 then main = 2 ^ 52 ∧ e' = e + 1 else main = q ∧ e' = e) ∧
      2 ^ 52 ≤ main ∧ main < 2 ^ 53 := by
  obtain rfl | hne := eq_or_ne q (2 ^ 53)
  · exact ⟨_, _, propagateCarry_of_carry e, by rw [if_pos rfl]; exact ⟨rfl, rfl⟩, by omega, by omega⟩
  · exact ⟨_, _, propagateCarry_of_ne e hne, by rw [if_neg hne]; exact ⟨rfl, rfl⟩, hle, by omega⟩

/-- The result of pack is that of step 6 on the main value, after its carry. -/
theorem pack_result {m : Nat} (s : Sign) (e : Int) (hm : 8 ≤ m) {main : Nat} {e' : Int}
    (hcarry : propagateCarry (e + msb m - 55) (mainValue e m) = ⟨main, e'⟩) :
    (pack s e m).result = (packExponent s e' main).result := by
  have hexp : (normalise e m).exponent = e + msb m - 55 := by
    rw [normalise_exponent]
    omega
  rw [pack_of_main s e m (shiftRight_three_ne_zero hm), emitBefore_result, hexp, ← mainValue, hcarry]

/-- Settles O16: the main value is `m` rounded to nearest, and step 6 takes one of its three ways by the
exponent after the carry. -/
theorem packRoundsToNearestEven : Obligations.PackRoundsToNearestEven := by
  intro s e m hm
  obtain ⟨hle, hle'⟩ := mainValue_bounds e (m := m) (by omega)
  obtain ⟨main, e', hcarry, hplace, hmain, hmain'⟩ :=
    propagateCarry_spec (e + msb m - 55) hle hle'
  refine ⟨mainValue e m, main, e', hle, hle', mainValue_of_msb_lt e, roundsTo_mainValue e, hplace,
    ?_⟩
  rw [pack_result s e hm hcarry]
  obtain ⟨h, hpack⟩ | ⟨hlow, hhigh, hpack⟩ | ⟨h, hpack⟩ := packExponent_cases s e' main <;> rw [hpack]
  · exact ⟨fun _ => rfl, fun _ _ => by omega, fun _ => by omega⟩
  · exact ⟨fun _ => by omega, fun _ _ => normalPattern_toNat s (by omega) hmain hmain',
      fun _ => by omega⟩
  · exact ⟨fun _ => by omega, fun _ _ => by omega, fun _ => rfl⟩

/-! ### The second rounding (R63) -/

theorem packSubnormal_of_flush (s : Sign) (main : Nat) {k : Nat} (h : 53 ≤ k) :
    packSubnormal s main k = ⟨zeroPattern s, []⟩ :=
  if_pos h

theorem packSubnormal_of_le (s : Sign) (main : Nat) {k : Nat} (h : k ≤ 52) :
    packSubnormal s main k =
      ⟨withSign s (BitVec.ofNat 63 (roundBy (main / 2 ^ k) (grsOfShift main k)).main),
        [(roundBy (main / 2 ^ k) (grsOfShift main k)).tag]⟩ := by
  rw [packSubnormal, if_neg (by omega), Nat.shiftRight_eq_div_pow]

/-- A round tag says whether the value was raised. -/
theorem roundBy_tag (main : Nat) (g : Grs) :
    (roundBy main g).tag = if (roundBy main g).main = main then .roundKeep else .roundCarry := by
  obtain ⟨-, h⟩ | ⟨-, h⟩ := roundBy_cases main g <;> simp [h]

/-- Settles O17: the second triple describes the bits its shift loses, so the Rounder rounds to nearest. -/
theorem underflowRoundsAgain : Obligations.UnderflowRoundsAgain := by
  intro s main k _ hlt hk
  refine ⟨packSubnormal_of_flush s main, fun hk52 => ?_⟩
  obtain ⟨k, rfl⟩ : ∃ j, k = j + 1 := ⟨k - 1, by omega⟩
  obtain ⟨hnear, htie⟩ := roundsTo_roundBy (grsOfShift_describes main k)
  have hhalf : main / 2 ^ (k + 1) < 2 ^ 52 := by
    rw [Nat.div_lt_iff_lt_mul (Nat.two_pow_pos _), pow_succ]
    have hpos := Nat.two_pow_pos k
    omega
  obtain ⟨-, hcarry⟩ := roundBy_main_bounds (main / 2 ^ (k + 1)) (grsOfShift main (k + 1))
  rw [packSubnormal_of_le s main hk52]
  exact ⟨_, by omega, withSign_ofNat_toNat s (by omega), hnear, htie, by rw [roundBy_tag]⟩

/-- Settles O18: the carry raises the exponent by at most one, so the exponent decides the way out of step 6,
and a value below `2^-1075` is flushed by its second shift. -/
theorem packRangeLimits : Obligations.PackRangeLimits := by
  intro s e m hm
  obtain ⟨q, main, e', -, -, -, -, hplace, hinf, -, hsub⟩ := packRoundsToNearestEven s e m hm
  have hcarry : e + msb m - 55 ≤ e' ∧ e' ≤ e + msb m - 55 + 1 := by
    split at hplace <;> omega
  refine ⟨fun h => hinf (by omega), fun h => ?_⟩
  rw [hsub (by omega), packSubnormal_of_flush s main (by omega)]

/-! ### Values that are already rounded (R64) -/

/-- When only zeros are lost, the value is kept. -/
theorem roundBy_of_exact {g : Grs} {x k : Nat} (h : g.Describes x k) (hx : x % 2 ^ (k + 1) = 0)
    (main : Nat) : roundBy main g = ⟨main, .roundKeep⟩ := by
  have hbit : ¬ x.testBit k = true := fun hbit =>
    (mod_two_pow_succ_ne_zero_iff x k).2 (.inl hbit) hx
  obtain ⟨hup, -⟩ | ⟨-, hkeep⟩ := roundBy_cases main g
  · exact absurd ((roundsUp_iff h main).1 hup).1 hbit
  · exact hkeep

theorem roundMain_of_exact (x : Nat) : roundMain (x * 2 ^ 3) = ⟨x, .roundKeep⟩ := by
  rw [roundMain, roundBy_of_exact (grsOf_describes _) (Nat.mul_mod_left _ _), Nat.shiftRight_eq_div_pow,
    Nat.mul_div_cancel _ (by decide)]

theorem packSubnormal_of_exact (s : Sign) (x : Nat) {k : Nat} (hk : 1 ≤ k) (hk52 : k ≤ 52) :
    packSubnormal s (x * 2 ^ k) k = ⟨withSign s (BitVec.ofNat 63 x), [.roundKeep]⟩ := by
  obtain ⟨k, rfl⟩ : ∃ j, k = j + 1 := ⟨k - 1, by omega⟩
  rw [packSubnormal_of_le s _ hk52,
    roundBy_of_exact (grsOfShift_describes _ k) (Nat.mul_mod_left _ _),
    Nat.mul_div_cancel _ (Nat.two_pow_pos _)]

theorem pack_normal_exact (s : Sign) {e : Int} {m : Nat} (hle : 2 ^ 52 ≤ m) (hlt : m < 2 ^ 53)
    (hlow : -1022 ≤ e) (hhigh : e ≤ 1023) :
    pack s e (m * 2 ^ 3) = ⟨normalPattern s (e + 1023).toNat m, [.roundKeep]⟩ := by
  have hne : m ≠ 0 := by omega
  have hmsb : msb (m * 2 ^ 3) = 55 := by
    rw [msb_mul_two_pow hne, (msb_eq_iff hne).2 ⟨hle, hlt⟩]
  rw [pack_of_main s e _ (shiftRight_three_ne_zero (by omega)), normalise_of_none e hmsb,
    roundMain_of_exact, propagateCarry_of_ne e hlt.ne]
  obtain ⟨h, -⟩ | ⟨-, -, hpack⟩ | ⟨h, -⟩ := packExponent_cases s e m
  · omega
  · rw [hpack]
    rfl
  · omega

theorem pack_subnormal_exact (s : Sign) {m : Nat} (hpos : 0 < m) (hlt : m < 2 ^ 52) :
    pack s (-1022) (m * 2 ^ 3) =
      ⟨withSign s (BitVec.ofNat 63 m), [.normalizeLeft (52 - msb m), .roundKeep, .roundKeep]⟩ := by
  have hne : m ≠ 0 := hpos.ne'
  have hmsb : msb m < 52 := (Nat.log2_lt hne).2 hlt
  obtain ⟨t, ht⟩ : ∃ t, msb m + t = 52 := ⟨52 - msb m, by omega⟩
  have hleft : msb (m * 2 ^ 3) + t = 55 := by
    rw [msb_mul_two_pow hne]
    omega
  have hmain : m * 2 ^ t < 2 ^ 53 := by
    have h := lt_two_pow_msb_succ (m * 2 ^ t)
    rwa [msb_mul_two_pow hne, ht] at h
  rw [pack_of_main s _ _ (shiftRight_three_ne_zero (by omega)),
    normalise_of_left _ hleft (by omega), Nat.mul_right_comm, roundMain_of_exact,
    propagateCarry_of_ne _ hmain.ne, show 52 - msb m = t by omega]
  obtain ⟨h, -⟩ | ⟨h, -, -⟩ | ⟨-, hpack⟩ := packExponent_cases s (-1022 - t) (m * 2 ^ t)
  · omega
  · omega
  · rw [hpack, show (-1022 - (-1022 - (t : Int))).toNat = t by omega,
      packSubnormal_of_exact s m (by omega) (by omega)]
    rfl

/-! ### The round trip (R64) -/

theorem zeroPattern_signField {p : Bits64} (hexp : expField p = 0) (hfrac : fracField p = 0) :
    zeroPattern (signField p) = p := by
  apply BitVec.eq_of_toNat_eq
  rw [zeroPattern_toNat, toNat_eq_fields p, hexp, hfrac, Nat.zero_mul, Nat.add_zero]

theorem withSign_fracField {p : Bits64} (hexp : expField p = 0) :
    withSign (signField p) (BitVec.ofNat 63 (fracField p)) = p := by
  have hlt := fracField_lt p
  apply BitVec.eq_of_toNat_eq
  rw [withSign_ofNat_toNat _ (by omega), toNat_eq_fields p, hexp, Nat.zero_mul, Nat.add_zero]

theorem normalPattern_fields (p : Bits64) :
    normalPattern (signField p) (expField p) (2 ^ 52 + fracField p) = p := by
  have hlt := fracField_lt p
  apply BitVec.eq_of_toNat_eq
  rw [normalPattern_toNat _ (expField_lt p) (by omega) (by omega), toNat_eq_fields p,
    Nat.add_sub_cancel_left]

/-- Settles O19: a zero by R57, a subnormal by two exact roundings, a normal by one. -/
theorem unpackPackRoundTrip : Obligations.UnpackPackRoundTrip := by
  intro p s e m sub hunpack
  have hlt := fracField_lt p
  rw [Nat.shiftLeft_eq]
  obtain hexp | ⟨h1, h2⟩ | hexp := expField_cases p
  · rw [unpack_of_expField_zero hexp] at hunpack
    cases hunpack
    by_cases hfrac : fracField p = 0
    · rw [if_pos ((isZero_iff p).2 ⟨hexp, hfrac⟩), hfrac, packOfZeroMain _ _ _ (by decide),
        zeroPattern_signField hexp hfrac]
    · have hzero : ¬ IsZero p := fun h => hfrac ((isZero_iff p).1 h).2
      rw [if_neg hzero, if_pos ((expBits_eq_iff p 0#11).2 hexp),
        pack_subnormal_exact _ (Nat.pos_of_ne_zero hfrac) hlt, withSign_fracField hexp]
      rfl
  · rw [unpack_of_expField_normal h1 h2] at hunpack
    cases hunpack
    have hzero : ¬ IsZero p := fun h => by
      have := ((isZero_iff p).1 h).1
      omega
    have hexp : p.extractLsb' 52 11 ≠ 0#11 := fun h => by
      have : expField p = 0 := (expBits_eq_iff p 0#11).1 h
      omega
    rw [if_neg hzero, if_neg hexp, pack_normal_exact _ (by omega) (by omega) (by omega) (by omega),
      show ((expField p : Int) - 1023 + 1023).toNat = expField p by omega, normalPattern_fields]
  · rw [unpack_of_expField_max hexp] at hunpack
    split at hunpack <;> cases hunpack

end Sys2Proof.Machine
end

section
/-! ADD and SUB as one operation, and their special cases (spec/41_add_sub.md R70 to R73). -/

namespace Sys2Proof.Machine

/-! ### A pattern under another sign -/

theorem signBit_eq_signField (p : Bits64) : signBit p = signField p := rfl

theorem expField_withSign (s : Sign) (m : BitVec 63) :
    expField (withSign s m) = m.toNat / 2 ^ 52 := by
  have h := m.isLt
  rw [expField_eq, withSign_toNat]
  omega

theorem fracField_withSign (s : Sign) (m : BitVec 63) :
    fracField (withSign s m) = m.toNat % 2 ^ 52 := by
  rw [fracField_eq, withSign_toNat]
  omega

theorem isZero_withSign_iff (s : Sign) (m : BitVec 63) : IsZero (withSign s m) ↔ m = 0#63 := by
  rw [IsZero, ← magnitudeField, magnitudeField_withSign]

@[simp] theorem withSign_fields (p : Bits64) : withSign (signField p) (magnitudeField p) = p := by
  apply BitVec.eq_of_toNat_eq
  rw [withSign_toNat, magnitudeField_toNat, toNat_eq_fields p, Nat.add_assoc]

theorem flipSign_eq_withSign (p : Bits64) :
    flipSign p = withSign (!signField p) (magnitudeField p) := by
  have hmask : (0x8000000000000000#64) = BitVec.ofBool true ++ 0#63 := by decide
  rw [flipSign, hmask]
  nth_rewrite 1 [← withSign_fields p]
  rw [withSign, BitVec.xor_append, BitVec.xor_zero, withSign]
  cases signField p <;> rfl

@[simp] theorem signField_flipSign (p : Bits64) : signField (flipSign p) = !signField p := by
  rw [flipSign_eq_withSign, signField_withSign]

@[simp] theorem magnitudeField_flipSign (p : Bits64) :
    magnitudeField (flipSign p) = magnitudeField p := by
  rw [flipSign_eq_withSign, magnitudeField_withSign]

@[simp] theorem expField_flipSign (p : Bits64) : expField (flipSign p) = expField p := by
  have h := fracField_lt p
  rw [flipSign_eq_withSign, expField_withSign, magnitudeField_toNat]
  omega

@[simp] theorem fracField_flipSign (p : Bits64) : fracField (flipSign p) = fracField p := by
  have h := fracField_lt p
  rw [flipSign_eq_withSign, fracField_withSign, magnitudeField_toNat]
  omega

/-! ### B after the flip (R71) -/

@[simp] theorem signField_effectiveB (subtract : Bool) (b : Bits64) :
    signField (effectiveB subtract b) = (signField b ^^ subtract) := by
  cases subtract <;> simp [effectiveB]

@[simp] theorem magnitudeField_effectiveB (subtract : Bool) (b : Bits64) :
    magnitudeField (effectiveB subtract b) = magnitudeField b := by
  cases subtract <;> simp [effectiveB]

@[simp] theorem expField_effectiveB (subtract : Bool) (b : Bits64) :
    expField (effectiveB subtract b) = expField b := by
  cases subtract <;> simp [effectiveB]

@[simp] theorem fracField_effectiveB (subtract : Bool) (b : Bits64) :
    fracField (effectiveB subtract b) = fracField b := by
  cases subtract <;> simp [effectiveB]

theorem isNaN_effectiveB_iff (subtract : Bool) (b : Bits64) :
    IsNaN (effectiveB subtract b) ↔ IsNaN b := by
  rw [isNaN_iff, isNaN_iff, expField_effectiveB, fracField_effectiveB]

theorem isInf_effectiveB_iff (subtract : Bool) (b : Bits64) :
    IsInf (effectiveB subtract b) ↔ IsInf b := by
  rw [isInf_iff, isInf_iff, expField_effectiveB, fracField_effectiveB]

theorem isFinite_effectiveB_iff (subtract : Bool) (b : Bits64) :
    IsFinite (effectiveB subtract b) ↔ IsFinite b := by
  rw [isFinite_iff, isFinite_iff, expField_effectiveB]

theorem isZero_effectiveB_iff (subtract : Bool) (b : Bits64) :
    IsZero (effectiveB subtract b) ↔ IsZero b := by
  rw [isZero_iff, isZero_iff, expField_effectiveB, fracField_effectiveB]

theorem isFiniteNonzero_effectiveB_iff (subtract : Bool) (b : Bits64) :
    IsFiniteNonzero (effectiveB subtract b) ↔ IsFiniteNonzero b :=
  and_congr (isFinite_effectiveB_iff subtract b) (not_congr (isZero_effectiveB_iff subtract b))

/-! ### ADDSUB reads B only after the flip (R71) -/

/-- An unpacked value with its sign flipped for a subtraction (R71). -/
def Unpacked.flipFor (subtract : Bool) : Unpacked → Unpacked
  | .nan s => .nan (s ^^ subtract)
  | .infinity s => .infinity (s ^^ subtract)
  | .finite s e m sub => .finite (s ^^ subtract) e m sub

theorem unpack_effectiveB (subtract : Bool) (b : Bits64) :
    unpack (effectiveB subtract b) = (unpack b).flipFor subtract := by
  rw [unpack, unpack, signField_effectiveB, expField_effectiveB, fracField_effectiveB]
  split_ifs <;> rfl

/-- ADDSUB adds to A the pattern that B is after the flip: in each pair of forms of its operands it reads B's
sign only as flipped. -/
theorem addSub_eq_addResponse (p : Params) (a b : Bits64) (subtract : Bool) :
    addSub p a b subtract = addResponse p a (effectiveB subtract b) := by
  rw [addResponse, addSub, addSub, unpack_effectiveB]
  cases unpack a <;> cases unpack b <;>
    simp [Unpacked.flipFor, Unpacked.isZero]

/-- ADD and SUB complete with the sum of A and B after the flip. -/
theorem answers_addSubInstr (subtract : Bool) (a b : Bits64) (s : State) :
    Answers (addSubInstr subtract a b) (addResponse Config.params a (effectiveB subtract b)) s := by
  rw [← addSub_eq_addResponse]
  cases subtract <;> exact exec_eq_enqueue _ s

/-- Settles O25: SUB is ADDSUB with the flip, ADD of the flipped pattern is ADDSUB without it. -/
theorem subFlipsThenAdds : Obligations.SubFlipsThenAdds := fun a b =>
  ⟨addResponse Config.params a (flipSign b), fun s =>
    ⟨answers_addSubInstr true a b s, answers_addSubInstr false a (flipSign b) s⟩⟩

/-! ### What `unpack` gives, by class (R50, R51) -/

theorem unpack_of_isNaN {p : Bits64} (h : IsNaN p) : unpack p = .nan (signField p) :=
  (unpackByFields p).1 h

theorem unpack_of_isInf {p : Bits64} (h : IsInf p) : unpack p = .infinity (signField p) :=
  (unpackByFields p).2.1 h

/-- The exponent of a finite pattern, counted from that of the subnormals (R50). -/
def expIndex (p : Bits64) : Nat := max 1 (expField p) - 1

/-- The significand of a finite pattern, its hidden bit included (R50). -/
def significandOf (p : Bits64) : Nat :=
  if expField p = 0 then fracField p else 2 ^ 52 + fracField p

theorem unpack_of_isFinite {p : Bits64} (h : IsFinite p) :
    unpack p = .finite (signField p) ((expIndex p : Int) - 1022) (significandOf p)
      (decide (expField p = 0)) := by
  rw [isFinite_iff] at h
  obtain hexp | ⟨h1, h2⟩ | hexp := expField_cases p
  · simp [unpack_of_expField_zero hexp, expIndex, significandOf, hexp]
  · have hzero : expField p ≠ 0 := by omega
    have hindex : (expField p : Int) - 1023 = (expIndex p : Int) - 1022 := by
      rw [expIndex]
      omega
    rw [unpack_of_expField_normal h1 h2, significandOf, if_neg hzero, decide_eq_false hzero, hindex]
  · exact absurd hexp h

@[simp] theorem expIndex_effectiveB (subtract : Bool) (b : Bits64) :
    expIndex (effectiveB subtract b) = expIndex b := by
  rw [expIndex, expIndex, expField_effectiveB]

@[simp] theorem significandOf_effectiveB (subtract : Bool) (b : Bits64) :
    significandOf (effectiveB subtract b) = significandOf b := by
  rw [significandOf, significandOf, expField_effectiveB, fracField_effectiveB]

theorem isZero_iff_significandOf (p : Bits64) : IsZero p ↔ significandOf p = 0 := by
  rw [isZero_iff, significandOf]
  split_ifs with h <;> omega

/-- Zero by the record's flag is zero by its significand, in each of the three finite forms. -/
theorem isZero_unpacked_iff (p : Bits64) (s : Sign) (e : Int) :
    (Unpacked.finite s e (significandOf p) (decide (expField p = 0))).isZero = true ↔ IsZero p := by
  rw [isZero_iff_significandOf, significandOf]
  by_cases h : expField p = 0 <;> simp [Unpacked.isZero, h]

theorem isFinite_of_isZero {p : Bits64} (h : IsZero p) : IsFinite p := by
  rw [isZero_iff] at h
  rw [isFinite_iff, h.1]
  decide

/-- A pattern is a NaN, an infinity or finite (R51). -/
theorem class_cases (p : Bits64) : IsNaN p ∨ IsInf p ∨ IsFinite p := by
  rw [isFinite_iff_not_nan_not_inf]
  tauto

/-! ### The sum by the classes of its operands (R72, R73) -/

theorem addResponse_of_isNaN_left (p : Params) {a : Bits64} (b : Bits64) (h : IsNaN a) :
    addResponse p a b = untagged (nanPattern p false) := by
  rw [addResponse, addSub, unpack_of_isNaN h]

theorem addResponse_of_isNaN_right (p : Params) (a : Bits64) {b : Bits64} (h : IsNaN b) :
    addResponse p a b = untagged (nanPattern p false) := by
  rw [addResponse, addSub, unpack_of_isNaN h]
  cases unpack a <;> rfl

theorem addResponse_of_isInf_isInf (p : Params) {a b : Bits64} (ha : IsInf a) (hb : IsInf b) :
    addResponse p a b =
      if signField a = signField b then untagged (infPattern (signField a))
      else untagged (nanPattern p false) := by
  rw [addResponse, addSub, unpack_of_isInf ha, unpack_of_isInf hb]
  simp only [Bool.xor_false]

theorem addResponse_of_isInf_isFinite (p : Params) {a b : Bits64} (ha : IsInf a) (hb : IsFinite b) :
    addResponse p a b = untagged (infPattern (signField a)) := by
  rw [addResponse, addSub, unpack_of_isInf ha, unpack_of_isFinite hb]

theorem addResponse_of_isFinite_isInf (p : Params) {a b : Bits64} (ha : IsFinite a) (hb : IsInf b) :
    addResponse p a b = untagged (infPattern (signField b)) := by
  rw [addResponse, addSub, unpack_of_isFinite ha, unpack_of_isInf hb]
  simp only [Bool.xor_false]

/-- Of finite operands the zeros are caught first; the others go through the arithmetic. -/
theorem addResponse_of_isFinite_isFinite (p : Params) {a b : Bits64} (ha : IsFinite a)
    (hb : IsFinite b) :
    addResponse p a b =
      (zeroShortcut p.zeroOrder (decide (IsZero a)) (decide (IsZero b)) a b).elim
        (combineMagnitudes (signField a) (signField b)
          (alignOperands ((expIndex a : Int) - 1022) (significandOf a)
            ((expIndex b : Int) - 1022) (significandOf b))) untagged := by
  have hzero : ∀ (q : Bits64) (s : Sign) (e : Int),
      (Unpacked.finite s e (significandOf q) (decide (expField q = 0))).isZero = decide (IsZero q) :=
    fun q s e => by rw [Bool.eq_iff_iff, isZero_unpacked_iff, decide_eq_true_iff]
  rw [addResponse, addSub, unpack_of_isFinite ha, unpack_of_isFinite hb]
  simp only [hzero, Bool.xor_false, withSign_fields]
  cases zeroShortcut p.zeroOrder (decide (IsZero a)) (decide (IsZero b)) a b <;> rfl

/-- Without a zero operand the shortcut is not taken, whatever its order. -/
theorem zeroShortcut_none (order : ZeroOrder) (a b : Bits64) :
    zeroShortcut order false false a b = none := by
  cases order <;> rfl

theorem addResponse_of_isZero_left (p : Params) {a b : Bits64} (ha : IsZero a)
    (hb : IsFiniteNonzero b) : addResponse p a b = untagged b := by
  rw [addResponse_of_isFinite_isFinite p (isFinite_of_isZero ha) hb.1, decide_eq_true ha,
    decide_eq_false hb.2]
  cases p.zeroOrder <;> rfl

theorem addResponse_of_isZero_right (p : Params) {a b : Bits64} (ha : IsFiniteNonzero a)
    (hb : IsZero b) : addResponse p a b = untagged a := by
  rw [addResponse_of_isFinite_isFinite p ha.1 (isFinite_of_isZero hb), decide_eq_true hb,
    decide_eq_false ha.2]
  cases p.zeroOrder <;> rfl

theorem addResponse_of_zeros (p : Params) {a b : Bits64} (ha : IsZero a) (hb : IsZero b) :
    addResponse p a b = untagged (match p.zeroOrder with | .aFirst => b | .bFirst => a) := by
  rw [addResponse_of_isFinite_isFinite p (isFinite_of_isZero ha) (isFinite_of_isZero hb),
    decide_eq_true ha, decide_eq_true hb]
  cases p.zeroOrder <;> rfl

theorem addResponse_of_isFiniteNonzero (p : Params) {a b : Bits64} (ha : IsFiniteNonzero a)
    (hb : IsFiniteNonzero b) :
    addResponse p a b = combineMagnitudes (signField a) (signField b)
      (alignOperands ((expIndex a : Int) - 1022) (significandOf a)
        ((expIndex b : Int) - 1022) (significandOf b)) := by
  rw [addResponse_of_isFinite_isFinite p ha.1 hb.1, decide_eq_false ha.2, decide_eq_false hb.2,
    zeroShortcut_none, Option.elim_none]

/-- Settles O24: each special case is one class of A against one class of B after the flip. -/
theorem addSubSpecials : Obligations.AddSubSpecials := by
  intro subtract a b s
  have hans := answers_addSubInstr subtract a b s
  refine ⟨?nan, fun ha hb heq => ?sameInf, fun ha hb hne => ?oppositeInf, fun ha hb => ?infA,
    fun ha hb => ?infB, fun ha hb => ?zeroA, fun ha hb => ?zeroB, fun ha hb => ?zeros⟩
  case nan =>
    rintro (ha | hb)
    · rwa [addResponse_of_isNaN_left _ _ ha] at hans
    · rwa [addResponse_of_isNaN_right _ _ ((isNaN_effectiveB_iff subtract b).2 hb)] at hans
  case sameInf =>
    rw [signBit_eq_signField, signBit_eq_signField] at heq
    rwa [addResponse_of_isInf_isInf _ ha ((isInf_effectiveB_iff subtract b).2 hb),
      if_pos heq] at hans
  case oppositeInf =>
    rw [signBit_eq_signField, signBit_eq_signField] at hne
    rwa [addResponse_of_isInf_isInf _ ha ((isInf_effectiveB_iff subtract b).2 hb),
      if_neg hne] at hans
  case infA =>
    rwa [addResponse_of_isInf_isFinite _ ha ((isFinite_effectiveB_iff subtract b).2 hb)] at hans
  case infB =>
    rwa [addResponse_of_isFinite_isInf _ ha ((isInf_effectiveB_iff subtract b).2 hb)] at hans
  case zeroA =>
    rwa [addResponse_of_isZero_left _ ha ((isFiniteNonzero_effectiveB_iff subtract b).2 hb)] at hans
  case zeroB =>
    rwa [addResponse_of_isZero_right _ ha ((isZero_effectiveB_iff subtract b).2 hb)] at hans
  case zeros =>
    rw [addResponse_of_zeros _ ha ((isZero_effectiveB_iff subtract b).2 hb)] at hans
    exact hans

end Sys2Proof.Machine
end

section
/-! The arithmetic of ADD and SUB on finite nonzero operands in units of `2^-1074` (spec/41_add_sub.md R74 to
R77): the magnitudes that ADDSUB aligns, adds and subtracts are the exact ones, shifted with sticky. -/

namespace Sys2Proof.Machine

/-! ### A finite pattern as significand and exponent index (R12, R50) -/

theorem significandOf_lt (p : Bits64) : significandOf p < 2 ^ 53 := by
  have h := fracField_lt p
  rw [significandOf]
  split_ifs <;> omega

/-- Above the lowest exponent the hidden bit is set. -/
theorem le_significandOf {p : Bits64} (h : expIndex p ≠ 0) : 2 ^ 52 ≤ significandOf p := by
  have hexp : expField p ≠ 0 := by
    rw [expIndex] at h
    omega
  rw [significandOf, if_neg hexp]
  omega

/-- Bits 62:0 as a number, by exponent index and significand. -/
theorem magnitudeOf_eq (p : Bits64) : magnitudeOf p = expIndex p * 2 ^ 52 + significandOf p := by
  have h : magnitudeOf p = expField p * 2 ^ 52 + fracField p := magnitudeField_toNat p
  rw [h, expIndex, significandOf]
  split_ifs <;> omega

/-- The magnitude of a finite pattern, in units of `2^-1074`. -/
def unitsAbs (p : Bits64) : Nat := significandOf p * 2 ^ expIndex p

theorem units_of_isFinite {p : Bits64} (h : IsFinite p) :
    units p = some (applySign (signField p) (unitsAbs p)) := by
  have hindex : ((expIndex p : Int) - 1022 + 1022).toNat = expIndex p := by omega
  rw [units_of_unpack_finite (unpack_of_isFinite h), hindex, unitsAbs]

theorem isFinite_of_units {p : Bits64} {u : Int} (h : units p = some u) : IsFinite p := by
  rw [isFinite_iff]
  intro hmax
  rw [units_of_expField_max hmax] at h
  cases h

theorem unitsAbs_pos {p : Bits64} (h : IsFiniteNonzero p) : 0 < unitsAbs p :=
  Nat.mul_pos (Nat.pos_of_ne_zero (mt (isZero_iff_significandOf p).2 h.2)) (Nat.two_pow_pos _)

/-! ### The shift with sticky against even numbers (R53) -/

theorem or_one_eq (n : Nat) : n ||| 1 = 2 * (n / 2) + 1 := by
  have hdiv : (n ||| 1) / 2 = n / 2 := by simp [Nat.or_div_two]
  have hmod : (n ||| 1) % 2 = 1 := by simp
  omega

theorem srs_eq_ite (m k : Nat) :
    srs m k = if m % 2 ^ k = 0 then m / 2 ^ k else 2 * (m / 2 ^ k / 2) + 1 := by
  split_ifs with h
  · exact srs_exact h
  · rw [srs_sticky h, or_one_eq]

/-- Whole even multiples of the step pass through the shift. -/
theorem srs_mul_add {x : Nat} (hx : x % 2 = 0) (m k : Nat) :
    srs (x * 2 ^ k + m) k = x + srs m k := by
  have hmod : (x * 2 ^ k + m) % 2 ^ k = m % 2 ^ k := Nat.mul_add_mod_self_right _ _ _
  have hdiv : (x * 2 ^ k + m) / 2 ^ k = x + m / 2 ^ k := by
    rw [Nat.add_comm, Nat.add_mul_div_right _ _ (Nat.two_pow_pos k), Nat.add_comm]
  rw [srs_eq_ite, srs_eq_ite, hmod, hdiv]
  split_ifs <;> omega

/-- What is taken from a whole even multiple of the step leaves its own sticky bit: the rest that is
borrowed is nonzero exactly when the rest that was there is. -/
theorem srs_mul_sub {x m k : Nat} (hx : x % 2 = 0) (hm : m ≤ x * 2 ^ k) :
    srs (x * 2 ^ k - m) k = x - srs m k := by
  have hpos := Nat.two_pow_pos k
  have hparts := Nat.div_add_mod' m (2 ^ k)
  by_cases hrest : m % 2 ^ k = 0
  · have hsub : x * 2 ^ k - m = (x - m / 2 ^ k) * 2 ^ k := by
      rw [Nat.sub_mul]
      omega
    rw [srs_exact hrest, hsub, srs_exact (Nat.mul_mod_left _ _), Nat.mul_div_cancel _ hpos]
  · have hlt : m / 2 ^ k < x := by
      rw [Nat.div_lt_iff_lt_mul hpos]
      exact lt_of_le_of_ne hm fun h => hrest (h ▸ Nat.mul_mod_left _ _)
    have hmodlt := Nat.mod_lt m hpos
    have hsub : x * 2 ^ k - m = (2 ^ k - m % 2 ^ k) + (x - m / 2 ^ k - 1) * 2 ^ k := by
      have hle : (x - m / 2 ^ k - 1) * 2 ^ k + (m / 2 ^ k) * 2 ^ k + 2 ^ k = x * 2 ^ k := by
        rw [← Nat.add_mul, ← Nat.succ_mul]
        congr 1
        omega
      omega
    have hdiv : (x * 2 ^ k - m) / 2 ^ k = x - m / 2 ^ k - 1 := by
      rw [hsub, Nat.add_mul_div_right _ _ hpos, Nat.div_eq_of_lt (by omega), Nat.zero_add]
    have hmod : (x * 2 ^ k - m) % 2 ^ k ≠ 0 := by
      rw [hsub, Nat.add_mul_mod_self_right, Nat.mod_eq_of_lt (by omega)]
      omega
    rw [srs_eq_ite, srs_eq_ite m, if_neg hmod, if_neg hrest, hdiv]
    omega

theorem srs_lt_iff {x : Nat} (hx : x % 2 = 0) (m k : Nat) : srs m k < x ↔ m < x * 2 ^ k := by
  rw [← Nat.div_lt_iff_lt_mul (Nat.two_pow_pos k), srs_eq_ite]
  split_ifs <;> omega

theorem lt_srs_iff {x : Nat} (hx : x % 2 = 0) (m k : Nat) : x < srs m k ↔ x * 2 ^ k < m := by
  have hpos := Nat.two_pow_pos k
  have hle : x ≤ m / 2 ^ k ↔ x * 2 ^ k ≤ m := Nat.le_div_iff_mul_le hpos
  have hparts := Nat.div_add_mod' m (2 ^ k)
  rw [srs_eq_ite]
  split_ifs with hrest
  · rw [hrest, Nat.add_zero] at hparts
    rw [← hparts, Nat.mul_div_cancel _ hpos]
    exact (Nat.mul_lt_mul_right hpos).symm
  · have hne : x * 2 ^ k ≠ m := fun h => hrest (h ▸ Nat.mul_mod_left _ _)
    omega

/-- Zeros appended to a number take up as much of the shift. -/
theorem srs_mul_two_pow (m j k : Nat) : srs (m * 2 ^ j) (j + k) = srs m k := by
  rw [← srs_srs, srs_exact (Nat.mul_mod_left _ _), Nat.mul_div_cancel _ (Nat.two_pow_pos j)]

/-! ### The aligned magnitude of a number of units -/

/-- The Aligner's result for a magnitude of `u` units at the common exponent index `E`: three GRS bits
appended, shifted right to that exponent (R74, R75). -/
def alignedUnits (E u : Nat) : Nat := srs (u * 8) E

theorem alignedUnits_of_grid (E x : Nat) : alignedUnits E (x * 2 ^ E) = x * 8 := by
  rw [alignedUnits, Nat.mul_right_comm]
  exact srs_mul_two_pow (x * 8) E 0

section

variable {E u v : Nat}

/-- Aligned magnitudes compare as the exact ones when one of them needs no shift. -/
theorem alignedUnits_lt_iff (h : 2 ^ E ∣ u ∨ 2 ^ E ∣ v) :
    alignedUnits E u < alignedUnits E v ↔ u < v := by
  obtain ⟨x, rfl⟩ | ⟨x, rfl⟩ := h <;> rw [Nat.mul_comm (2 ^ E), alignedUnits_of_grid, alignedUnits]
  · rw [lt_srs_iff (by omega), Nat.mul_right_comm, Nat.mul_lt_mul_right (by decide)]
  · rw [srs_lt_iff (by omega), Nat.mul_right_comm, Nat.mul_lt_mul_right (by decide)]

theorem alignedUnits_add (h : 2 ^ E ∣ u ∨ 2 ^ E ∣ v) :
    alignedUnits E u + alignedUnits E v = alignedUnits E (u + v) := by
  obtain ⟨x, rfl⟩ | ⟨x, rfl⟩ := h <;>
    rw [Nat.mul_comm (2 ^ E), alignedUnits_of_grid, alignedUnits, alignedUnits, Nat.add_mul,
      Nat.mul_right_comm x]
  · rw [srs_mul_add (by omega)]
  · rw [Nat.add_comm (u * 8), srs_mul_add (by omega), Nat.add_comm]

theorem alignedUnits_sub (h : 2 ^ E ∣ u ∨ 2 ^ E ∣ v) (hle : v ≤ u) :
    alignedUnits E u - alignedUnits E v = alignedUnits E (u - v) := by
  obtain ⟨x, rfl⟩ | h := h
  · rw [Nat.mul_comm (2 ^ E)] at hle ⊢
    rw [alignedUnits_of_grid, alignedUnits, alignedUnits, Nat.sub_mul, Nat.mul_right_comm,
      srs_mul_sub (by omega) (by rw [Nat.mul_right_comm]; omega)]
  · have hadd := alignedUnits_add (u := u - v) (.inr h)
    rw [Nat.sub_add_cancel hle] at hadd
    omega

end

/-! ### Stages 3 to 5 (R74 to R76) -/

/-- The tag of stage 4: `align` exactly when the exponents differ (R75). -/
def alignTagFor (eA eB : Int) : List Tag := if eA = eB then [] else [.align]

/-- Stage 4 for one operand: three GRS bits, and the shift to a larger exponent of the other (R74, R75). -/
def alignedTo (e eOther : Int) (m : Nat) : Nat :=
  if e < eOther then srs (m * 8) (eOther - e).toNat else m * 8

theorem alignOperands_eq (eA eB : Int) (mA mB : Nat) :
    alignOperands eA mA eB mB =
      ⟨max eA eB, alignedTo eA eB mA, alignedTo eB eA mB, alignTagFor eA eB⟩ := by
  have hgrs : ∀ m : Nat, m <<< 3 = m * 8 := fun m => Nat.shiftLeft_eq m 3
  simp only [alignOperands, alignTag, alignedTo, alignTagFor, hgrs]
  obtain h | rfl | h := lt_trichotomy eA eB
  · have hshift : 0 < (eB - eA).toNat := by omega
    simp [hshift, h, h.ne, h.not_ge, h.le, h.not_gt]
  · simp
  · have hshift : 0 < (eA - eB).toNat := by omega
    simp [hshift, h, h.ne', h.le, h.not_gt]

/-- In units, both aligned magnitudes are the exact ones at the larger exponent index. -/
theorem alignedTo_eq_alignedUnits (i j m : Nat) :
    alignedTo ((i : Int) - 1022) ((j : Int) - 1022) m = alignedUnits (max i j) (m * 2 ^ i) := by
  rw [alignedTo, alignedUnits, Nat.mul_right_comm]
  split_ifs with h
  · have hshift : ((j : Int) - 1022 - ((i : Int) - 1022)).toNat = j - i := by omega
    have hmax : max i j = i + (j - i) := by omega
    rw [hshift, hmax, srs_mul_two_pow]
  · have hmax : max i j = i + 0 := by omega
    rw [hmax, srs_mul_two_pow, srs_zero]

/-- The `align` tag of two patterns. -/
def alignTagOf (a b : Bits64) : List Tag := if expIndex a = expIndex b then [] else [.align]

/-- The larger exponent index. -/
def commonIndex (a b : Bits64) : Nat := max (expIndex a) (expIndex b)

theorem addResponse_eq_combine (p : Params) {a b : Bits64} (ha : IsFiniteNonzero a)
    (hb : IsFiniteNonzero b) :
    addResponse p a b = combineMagnitudes (signField a) (signField b)
      ⟨(commonIndex a b : Int) - 1022, alignedUnits (commonIndex a b) (unitsAbs a),
        alignedUnits (commonIndex a b) (unitsAbs b), alignTagOf a b⟩ := by
  have hexp : max ((expIndex a : Int) - 1022) ((expIndex b : Int) - 1022) =
      (commonIndex a b : Int) - 1022 := by
    rw [commonIndex]
    omega
  have htags : alignTagFor ((expIndex a : Int) - 1022) ((expIndex b : Int) - 1022) =
      alignTagOf a b := by
    rw [alignTagFor, alignTagOf]
    exact if_congr (by omega) rfl rfl
  rw [addResponse_of_isFiniteNonzero p ha hb, alignOperands_eq, alignedTo_eq_alignedUnits,
    alignedTo_eq_alignedUnits, hexp, htags, max_comm (expIndex b)]
  rfl

/-- The operand of the larger exponent needs no shift. -/
theorem dvd_unitsAbs (a b : Bits64) :
    2 ^ commonIndex a b ∣ unitsAbs a ∨ 2 ^ commonIndex a b ∣ unitsAbs b := by
  rw [commonIndex]
  obtain h | h := le_total (expIndex a) (expIndex b)
  · rw [max_eq_right h]
    exact .inr (Nat.dvd_mul_left _ _)
  · rw [max_eq_left h]
    exact .inl (Nat.dvd_mul_left _ _)

/-- Pack, of a magnitude of `u` units aligned to the exponent index `E`. -/
def packUnits (s : Sign) (E u : Nat) : Response := pack s ((E : Int) - 1022) (alignedUnits E u)

/-- What ADDSUB does with finite nonzero operands, in units: it packs the exact sum of the magnitudes, or
their exact difference, aligned to the larger exponent. -/
theorem addResponse_cases (p : Params) {a b : Bits64} (ha : IsFiniteNonzero a)
    (hb : IsFiniteNonzero b) :
    (signField a = signField b ∧ addResponse p a b = emitBefore (alignTagOf a b ++ [.add])
      (packUnits (signField a) (commonIndex a b) (unitsAbs a + unitsAbs b))) ∨
    (signField a ≠ signField b ∧ unitsAbs b < unitsAbs a ∧
      addResponse p a b = emitBefore (alignTagOf a b ++ [.subAB])
        (packUnits (signField a) (commonIndex a b) (unitsAbs a - unitsAbs b))) ∨
    (signField a ≠ signField b ∧ unitsAbs a < unitsAbs b ∧
      addResponse p a b = emitBefore (alignTagOf a b ++ [.subBA])
        (packUnits (signField b) (commonIndex a b) (unitsAbs b - unitsAbs a))) ∨
    (signField a ≠ signField b ∧ unitsAbs a = unitsAbs b ∧
      addResponse p a b = ⟨zeroPattern false, alignTagOf a b⟩) := by
  have hgrid := dvd_unitsAbs a b
  rw [addResponse_eq_combine p ha hb, combineMagnitudes]
  by_cases hs : signField a = signField b
  · exact .inl ⟨hs, by rw [if_pos hs, alignedUnits_add hgrid]; rfl⟩
  rw [if_neg hs, if_congr (alignedUnits_lt_iff hgrid.symm) rfl rfl]
  obtain h | h | h := Nat.lt_trichotomy (unitsAbs a) (unitsAbs b)
  · refine .inr (.inr (.inl ⟨hs, h, ?_⟩))
    rw [if_neg h.asymm, if_pos ((alignedUnits_lt_iff hgrid).2 h), alignedUnits_sub hgrid.symm h.le]
    rfl
  · refine .inr (.inr (.inr ⟨hs, h, ?_⟩))
    rw [if_neg h.symm.not_lt, if_neg (mt (alignedUnits_lt_iff hgrid).1 h.not_lt)]
  · refine .inr (.inl ⟨hs, h, ?_⟩)
    rw [if_pos h, alignedUnits_sub hgrid h.le]
    rfl

end Sys2Proof.Machine
end

section
/-! Statements about the arithmetic of ADD and SUB: its stages, its tags, commutativity and exact cancellation
(spec/41_add_sub.md R74 to R77). -/

namespace Sys2Proof.Machine

/-! ### Stage 5, by the signs and the order of the magnitudes (R76, R77) -/

section

variable {sA sB : Sign} {e : Int} {x y : Nat} {ts : List Tag}

theorem combineMagnitudes_of_eq (h : sA = sB) :
    combineMagnitudes sA sB ⟨e, x, y, ts⟩ = emitBefore (ts ++ [.add]) (pack sA e (x + y)) := if_pos h

theorem combineMagnitudes_of_gt (h : sA ≠ sB) (hlt : y < x) :
    combineMagnitudes sA sB ⟨e, x, y, ts⟩ = emitBefore (ts ++ [.subAB]) (pack sA e (x - y)) := by
  rw [combineMagnitudes, if_neg h, if_pos hlt]

theorem combineMagnitudes_of_lt (h : sA ≠ sB) (hlt : x < y) :
    combineMagnitudes sA sB ⟨e, x, y, ts⟩ = emitBefore (ts ++ [.subBA]) (pack sB e (y - x)) := by
  rw [combineMagnitudes, if_neg h, if_neg hlt.not_gt, if_pos hlt]

theorem combineMagnitudes_of_cancel (h : sA ≠ sB) (heq : x = y) :
    combineMagnitudes sA sB ⟨e, x, y, ts⟩ = ⟨zeroPattern false, ts⟩ := by
  rw [combineMagnitudes, if_neg h, if_neg heq.not_gt, if_neg heq.not_lt]

end

/-! ### The exponents and the `align` tag (R75) -/

/-- Of two finite patterns the one of the larger exponent is the larger one in magnitude. -/
theorem unitsAbs_lt_of_expIndex_lt {a b : Bits64} (h : expIndex a < expIndex b) :
    unitsAbs a < unitsAbs b := by
  have hb : 2 ^ 52 ≤ significandOf b := le_significandOf (by omega)
  calc unitsAbs a < 2 ^ 53 * 2 ^ expIndex a :=
        Nat.mul_lt_mul_of_pos_right (significandOf_lt a) (Nat.two_pow_pos _)
    _ = 2 ^ 52 * 2 ^ (expIndex a + 1) := by ring
    _ ≤ significandOf b * 2 ^ expIndex b := Nat.mul_le_mul hb (Nat.pow_le_pow_right (by decide) h)

theorem expIndex_eq_of_unitsAbs_eq {a b : Bits64} (h : unitsAbs a = unitsAbs b) :
    expIndex a = expIndex b := by
  obtain hlt | heq | hlt := lt_trichotomy (expIndex a) (expIndex b)
  · exact absurd h (unitsAbs_lt_of_expIndex_lt hlt).ne
  · exact heq
  · exact absurd h (unitsAbs_lt_of_expIndex_lt hlt).ne'

theorem alignTagOf_eq_nil {a b : Bits64} (h : expIndex a = expIndex b) : alignTagOf a b = [] := if_pos h

theorem expIndex_eq_iff (a b : Bits64) :
    expIndex a = expIndex b ↔ max 1 (expField a) = max 1 (expField b) := by
  rw [expIndex, expIndex]
  omega

/-- Of tags that go on with another one, the first is `align` exactly when the exponents differ. -/
theorem head_alignTagOf_append_iff (a b : Bits64) {t : Tag} (ht : t ≠ .align) (ts : List Tag) :
    (alignTagOf a b ++ [t] ++ ts).head? = some .align ↔ expIndex a ≠ expIndex b := by
  rw [alignTagOf]
  split_ifs with h <;> simp [h, ht]

/-- Settles O29: the tags begin with the align tag, and where nothing follows it the exponents are equal. -/
theorem alignTagIffExponentsDiffer : Obligations.AlignTagIffExponentsDiffer := by
  intro subtract a b s ha hb
  have hb' := (isFiniteNonzero_effectiveB_iff subtract b).2 hb
  refine ⟨_, answers_addSubInstr subtract a b s, ?_⟩
  rw [Ne, ← expField, ← expField, ← expField_effectiveB subtract b, ← expIndex_eq_iff]
  obtain ⟨-, h⟩ | ⟨-, -, h⟩ | ⟨-, -, h⟩ | ⟨-, heq, h⟩ :=
    addResponse_cases Config.params ha hb' <;> rw [h]
  · exact head_alignTagOf_append_iff _ _ (by decide) _
  · exact head_alignTagOf_append_iff _ _ (by decide) _
  · exact head_alignTagOf_append_iff _ _ (by decide) _
  · have hexp := expIndex_eq_of_unitsAbs_eq heq
    simp [alignTagOf_eq_nil hexp, hexp]

/-! ### Exact cancellation (R77) -/

/-- Equal magnitudes of opposite sign cancel, and no shift is made. -/
theorem addResponse_of_cancel (p : Params) {a b : Bits64} (ha : IsFiniteNonzero a)
    (hb : IsFiniteNonzero b) (hs : signField a ≠ signField b) (h : unitsAbs a = unitsAbs b) :
    addResponse p a b = ⟨zeroPattern false, []⟩ := by
  obtain ⟨hs', -⟩ | ⟨-, hlt, -⟩ | ⟨-, hlt, -⟩ | ⟨-, -, hr⟩ := addResponse_cases p ha hb
  · exact absurd hs' hs
  · exact absurd h hlt.ne'
  · exact absurd h hlt.ne
  · rw [hr, alignTagOf_eq_nil (expIndex_eq_of_unitsAbs_eq h)]

theorem unitsAbs_effectiveB (subtract : Bool) (b : Bits64) :
    unitsAbs (effectiveB subtract b) = unitsAbs b := by
  rw [unitsAbs, unitsAbs, significandOf_effectiveB, expIndex_effectiveB]

theorem unitsAbs_flipSign (p : Bits64) : unitsAbs (flipSign p) = unitsAbs p :=
  unitsAbs_effectiveB true p

/-- Settles O26: the flipped pattern has the same magnitude and the other sign. -/
theorem exactCancellation : Obligations.ExactCancellation := by
  intro subtract a b s ha heq
  have hans := answers_addSubInstr subtract a b s
  have hsign : signField a ≠ signField (flipSign a) := by
    rw [signField_flipSign]
    exact (Bool.not_ne_self _).symm
  have hb : IsFiniteNonzero (flipSign a) := (isFiniteNonzero_effectiveB_iff true a).2 ha
  rwa [heq, addResponse_of_cancel _ ha hb hsign (unitsAbs_flipSign a).symm] at hans

/-! ### The stages together (R74 to R76) -/

theorem alignedTo_lt (e eOther : Int) {m : Nat} (hm : m < 2 ^ 53) : alignedTo e eOther m < 2 ^ 56 := by
  rw [alignedTo]
  split_ifs
  · exact srs_lt_two_pow (by decide) (by omega)
  · omega

/-- Aligned magnitudes are equal only for equal exponents: the hidden bit of the larger operand stands. -/
theorem expIndex_eq_of_alignedTo_eq {a b : Bits64}
    (h : alignedTo ((expIndex a : Int) - 1022) ((expIndex b : Int) - 1022) (significandOf a) =
      alignedTo ((expIndex b : Int) - 1022) ((expIndex a : Int) - 1022) (significandOf b)) :
    expIndex a = expIndex b := by
  have hgrid := dvd_unitsAbs a b
  rw [alignedTo_eq_alignedUnits, alignedTo_eq_alignedUnits, max_comm (expIndex b)] at h
  refine expIndex_eq_of_unitsAbs_eq (le_antisymm ?_ ?_)
  · exact not_lt.1 (mt (alignedUnits_lt_iff hgrid.symm).2 h.not_gt)
  · exact not_lt.1 (mt (alignedUnits_lt_iff hgrid).2 h.not_lt)

/-- Settles O30: each of the four ways of stage 5, on the magnitudes that stages 3 and 4 leave. -/
theorem addSubArithmetic : Obligations.AddSubArithmetic := by
  intro subtract a b s sA sB eA eB mA mB subA subB ha hb hunpackA hunpackB
  have hb' := (isFiniteNonzero_effectiveB_iff subtract b).2 hb
  have hans := answers_addSubInstr subtract a b s
  rw [addResponse_of_isFiniteNonzero _ ha hb', alignOperands_eq] at hans
  rw [unpack_of_isFinite ha.1] at hunpackA
  rw [unpack_of_isFinite hb'.1] at hunpackB
  cases hunpackA
  cases hunpackB
  refine ⟨?bound, fun hs => ?add, fun hs hlt => ?subAB, fun hs hlt => ?subBA, fun hs heq => ?cancel⟩
  case bound =>
    have hA := alignedTo_lt ((expIndex a : Int) - 1022)
      ((expIndex (effectiveB subtract b) : Int) - 1022) (significandOf_lt a)
    have hB := alignedTo_lt ((expIndex (effectiveB subtract b) : Int) - 1022)
      ((expIndex a : Int) - 1022) (significandOf_lt (effectiveB subtract b))
    exact Nat.add_lt_add hA hB
  case add => rwa [combineMagnitudes_of_eq hs, emitBefore, List.append_assoc] at hans
  case subAB =>
    rw [combineMagnitudes_of_gt hs, emitBefore, List.append_assoc] at hans
    exacts [hans, hlt]
  case subBA =>
    rw [combineMagnitudes_of_lt hs, emitBefore, List.append_assoc] at hans
    exacts [hans, hlt]
  case cancel =>
    rw [combineMagnitudes_of_cancel hs, alignTagFor, expIndex_eq_of_alignedTo_eq heq, if_pos rfl] at hans
    exacts [hans, heq]

/-! ### Commutativity (R72, R73, R76) -/

/-- The tag with the names of the operands exchanged. -/
def swapTag : Tag → Tag
  | .subAB => .subBA
  | .subBA => .subAB
  | .align => .align
  | .add => .add
  | .normalizeLeft n => .normalizeLeft n
  | .normalizeRight n => .normalizeRight n
  | .roundCarry => .roundCarry
  | .roundKeep => .roundKeep

/-- The response with the names of the operands exchanged. -/
def swapOperands (r : Response) : Response := ⟨r.result, r.tags.map swapTag⟩

theorem swapOperands_untagged (q : Bits64) : swapOperands (untagged q) = untagged q := rfl

theorem swapOperands_emitBefore (ts : List Tag) (r : Response) :
    swapOperands (emitBefore ts r) = emitBefore (ts.map swapTag) (swapOperands r) := by
  rw [swapOperands, emitBefore, List.map_append]
  rfl

theorem swapTag_of_two_le_stage {t : Tag} (h : 2 ≤ t.stage) : swapTag t = t := by
  cases t with
  | align | add | subAB | subBA => simp [Tag.stage] at h
  | normalizeLeft n | normalizeRight n => rfl
  | roundCarry | roundKeep => rfl

/-- Pack names no operand. -/
theorem swapOperands_pack (s : Sign) (e : Int) {m : Nat} (hm : m < 2 ^ 106) :
    swapOperands (pack s e m) = pack s e m := by
  obtain ⟨hstages, -⟩ := stepsWithin_pack s e hm
  have hstage : ∀ t ∈ (pack s e m).tags, swapTag t = t := by
    intro t ht
    have hlate : ∀ n ∈ [2, 3, 3], 2 ≤ n := by decide
    exact swapTag_of_two_le_stage (hlate _ (hstages.subset (List.mem_map_of_mem ht)))
  rw [swapOperands, List.map_congr_left hstage, List.map_id']

theorem swapOperands_combineMagnitudes (sA sB : Sign) (e : Int) {x y : Nat} {ts : List Tag}
    (hx : x < 2 ^ 56) (hy : y < 2 ^ 56) (hts : ts.map swapTag = ts) :
    combineMagnitudes sB sA ⟨e, y, x, ts⟩ = swapOperands (combineMagnitudes sA sB ⟨e, x, y, ts⟩) := by
  by_cases hs : sA = sB
  · rw [combineMagnitudes_of_eq hs, combineMagnitudes_of_eq hs.symm, swapOperands_emitBefore,
      swapOperands_pack _ _ (by omega), List.map_append, hts, hs, Nat.add_comm]
    rfl
  obtain h | h | h := Nat.lt_trichotomy x y
  · rw [combineMagnitudes_of_lt hs h, combineMagnitudes_of_gt (Ne.symm hs) h, swapOperands_emitBefore,
      swapOperands_pack _ _ (by omega), List.map_append, hts]
    rfl
  · rw [combineMagnitudes_of_cancel hs h, combineMagnitudes_of_cancel (Ne.symm hs) h.symm,
      swapOperands, hts]
  · rw [combineMagnitudes_of_gt hs h, combineMagnitudes_of_lt (Ne.symm hs) h, swapOperands_emitBefore,
      swapOperands_pack _ _ (by omega), List.map_append, hts]
    rfl

theorem alignTagFor_comm (eA eB : Int) : alignTagFor eA eB = alignTagFor eB eA :=
  if_congr eq_comm rfl rfl

theorem map_swapTag_alignTagFor (eA eB : Int) :
    (alignTagFor eA eB).map swapTag = alignTagFor eA eB := by
  rw [alignTagFor]
  split_ifs <;> rfl

theorem addResponse_swap_of_isFiniteNonzero (p : Params) {a b : Bits64} (ha : IsFiniteNonzero a)
    (hb : IsFiniteNonzero b) : addResponse p b a = swapOperands (addResponse p a b) := by
  rw [addResponse_of_isFiniteNonzero p ha hb, addResponse_of_isFiniteNonzero p hb ha,
    alignOperands_eq, alignOperands_eq, max_comm, alignTagFor_comm]
  exact swapOperands_combineMagnitudes _ _ _ (alignedTo_lt _ _ (significandOf_lt a))
    (alignedTo_lt _ _ (significandOf_lt b)) (map_swapTag_alignTagFor _ _)

/-- Two infinities: equal signs give the common infinity, opposite ones a NaN, in either order. -/
theorem addResponse_comm_of_isInf (p : Params) {a b : Bits64} (ha : IsInf a) (hb : IsInf b) :
    addResponse p b a = addResponse p a b := by
  rw [addResponse_of_isInf_isInf p ha hb, addResponse_of_isInf_isInf p hb ha]
  by_cases hs : signField a = signField b
  · rw [if_pos hs, if_pos hs.symm, hs]
  · rw [if_neg hs, if_neg (Ne.symm hs)]

/-- By the classes of the operands (R72, R73): each special case answers alike in both orders, and without a tag. -/
theorem addResponse_swap (p : Params) {a b : Bits64} (h : ¬ (IsZero a ∧ IsZero b)) :
    addResponse p b a = swapOperands (addResponse p a b) := by
  obtain ha | ha | ha := class_cases a
  · rw [addResponse_of_isNaN_left p b ha, addResponse_of_isNaN_right p b ha, swapOperands_untagged]
  all_goals obtain hb | hb | hb := class_cases b
  · rw [addResponse_of_isNaN_left p a hb, addResponse_of_isNaN_right p a hb, swapOperands_untagged]
  · rw [addResponse_comm_of_isInf p ha hb, addResponse_of_isInf_isInf p ha hb]
    split_ifs <;> rw [swapOperands_untagged]
  · rw [addResponse_of_isInf_isFinite p ha hb, addResponse_of_isFinite_isInf p hb ha,
      swapOperands_untagged]
  · rw [addResponse_of_isNaN_left p a hb, addResponse_of_isNaN_right p a hb, swapOperands_untagged]
  · rw [addResponse_of_isInf_isFinite p hb ha, addResponse_of_isFinite_isInf p ha hb,
      swapOperands_untagged]
  · by_cases hzA : IsZero a
    · have hzB : ¬ IsZero b := fun hzB => h ⟨hzA, hzB⟩
      rw [addResponse_of_isZero_left p hzA ⟨hb, hzB⟩, addResponse_of_isZero_right p ⟨hb, hzB⟩ hzA,
        swapOperands_untagged]
    by_cases hzB : IsZero b
    · rw [addResponse_of_isZero_left p hzB ⟨ha, hzA⟩, addResponse_of_isZero_right p ⟨ha, hzA⟩ hzB,
        swapOperands_untagged]
    · exact addResponse_swap_of_isFiniteNonzero p ⟨ha, hzA⟩ ⟨hb, hzB⟩

/-- Settles O31: the response to the exchanged operands is that of the operands with their names exchanged. -/
theorem addCommutes : Obligations.AddCommutes := by
  intro a b s h
  have hswap : addResponse Config.params b (effectiveB false a) =
      swapOperands (addResponse Config.params a (effectiveB false b)) :=
    addResponse_swap Config.params h
  refine ⟨_, _, answers_addSubInstr false a b s, answers_addSubInstr false b a s, ?_, ?_⟩
  · rw [hswap]
    rfl
  · rw [hswap]
    refine List.map_congr_left fun t _ => ?_
    cases t <;> rfl

end Sys2Proof.Machine
end

section
/-! The first rounding of an aligned magnitude rounds the exact one, and what pack makes of it
(spec/40_codec.md R58 to R63; spec/41_add_sub.md R79). -/

namespace Sys2Proof.Machine

/-! ### Rounding to nearest, of scaled numbers -/

theorem roundsTo_mul_two_pow {x k q : Nat} (j : Nat) (h : RoundsTo x k q) :
    RoundsTo (x * 2 ^ j) (k + j) q := by
  have hpos : (0 : Int) < 2 ^ j := by positivity
  have herr : |(q * 2 ^ (k + j) : Int) - (x * 2 ^ j : Nat)| = |(q * 2 ^ k : Int) - x| * 2 ^ j := by
    rw [Nat.cast_mul, Nat.cast_pow, Nat.cast_ofNat, pow_add, ← mul_assoc, ← sub_mul, abs_mul,
      abs_of_pos hpos]
  rw [RoundsTo, herr, pow_add, ← mul_assoc]
  exact ⟨mul_le_mul_of_nonneg_right h.1 hpos.le, fun htie => h.2 (mul_right_cancel₀ hpos.ne' htie)⟩

theorem roundsTo_exact (q k : Nat) : RoundsTo (q * 2 ^ k) k q :=
  roundsTo_of_remainder_le (r := 0) rfl (Nat.zero_le _) fun h => absurd h.symm (Nat.two_pow_pos k).ne'

/-- The main value of `z` rounds `z` at every scale: to 53 bits, or exactly when there are fewer. -/
theorem roundsTo_mainValue_scaled (e : Int) {z j k : Nat} (h : msb z + j = 52 + k) :
    RoundsTo (z * 2 ^ j) k (mainValue e z) := by
  obtain hlt | hle := Nat.lt_or_ge (msb z) 52
  · rw [mainValue_of_msb_lt e hlt, show j = 52 - msb z + k by omega, pow_add, ← mul_assoc]
    exact roundsTo_exact _ _
  · rw [show k = msb z - 52 + j by omega]
    exact roundsTo_mul_two_pow j (roundsTo_mainValue e hle)

theorem testBit_double_succ (x i : Nat) : (x * 2).testBit (i + 1) = x.testBit i := by
  rw [Nat.testBit_add_one, Nat.mul_div_cancel _ (by decide)]

/-- The low three bits of a doubled number describe the bits that a shift by 2 loses. -/
theorem grsOf_double_describes (x : Nat) : (grsOf (x * 2)).Describes x 1 where
  guard_eq := testBit_double_succ x 1
  rest_iff := by
    have hround : (x * 2).testBit 1 = x.testBit 0 := testBit_double_succ x 0
    rw [mod_two_pow_succ_ne_zero_iff]
    simp [grsOf, hround, Nat.mod_one]

/-- A magnitude shifted with sticky and then left by one place still rounds as it did before the shift. -/
theorem roundsTo_roundMain_double_srs (m j : Nat) :
    RoundsTo m (j + 2) (roundMain (srs m j * 2)).main := by
  have hmain : (srs m j * 2) >>> 3 = m / 2 ^ (j + 2) := by
    calc (srs m j * 2) >>> 3 = (srs m j >>> 1) >>> 1 := by
          simp only [Nat.shiftRight_eq_div_pow]
          omega
      _ = m / 2 ^ (j + 2) := by
          rw [srs_shiftRight_one, ← Nat.shiftRight_add, Nat.shiftRight_eq_div_pow]
  rw [roundMain, hmain]
  exact roundsTo_roundBy (grsOf_double_describes (srs m j)).of_srs

/-- Where the sticky bit lies below the lowest two GRS places, it stands for all that the Aligner lost. -/
theorem roundsTo_mainValue_srs (e : Int) {m j : Nat} (h : 54 + j ≤ msb m) :
    RoundsTo m (msb m - 52) (mainValue e (srs m j)) := by
  have hmsb : msb (srs m j) = msb m - j := msb_srs (by omega) (by omega)
  rw [mainValue]
  obtain ⟨sh, hn, hsh⟩ | hn | ⟨sh, hn, hsh⟩ := msb_cases (srs m j)
  · rw [normalise_of_right e hn hsh, srs_srs, show msb m - 52 = j + sh + 3 by omega]
    exact roundsTo_roundMain_srs m (j + sh)
  · rw [normalise_of_none e hn, show msb m - 52 = j + 3 by omega]
    exact roundsTo_roundMain_srs m j
  · obtain rfl : sh = 1 := by omega
    rw [normalise_of_left e hn hsh, show msb m - 52 = j + 2 by omega]
    exact roundsTo_roundMain_double_srs m j

/-! ### Magnitudes that the alignment leaves whole enough -/

/-- A magnitude of `u` units that pack rounds as the exact one after its alignment to the exponent index `E`:
the main value keeps a bit, and if the shift loses a bit then 54 others are kept. -/
structure Packable (E u : Nat) : Prop where
  step_le : 2 ^ E ≤ u
  kept : 2 ^ E ∣ u * 8 ∨ 2 ^ (51 + E) ≤ u

section

variable {E u : Nat}

theorem Packable.ne_zero (h : Packable E u) : u ≠ 0 :=
  (lt_of_lt_of_le (Nat.two_pow_pos E) h.step_le).ne'

theorem eight_le_alignedUnits_iff : 8 ≤ alignedUnits E u ↔ 2 ^ E ≤ u := by
  rw [← not_lt, ← not_lt, alignedUnits, srs_lt_iff (by decide), Nat.mul_comm 8,
    Nat.mul_lt_mul_right (by decide)]

theorem Packable.msb_alignedUnits (h : Packable E u) :
    msb (alignedUnits E u) + E = msb u + 3 := by
  have hu := h.ne_zero
  have hmsb : msb (u * 8) = msb u + 3 := msb_mul_two_pow hu 3
  have hle : E ≤ msb u := (Nat.le_log2 hu).2 h.step_le
  rw [alignedUnits, msb_srs (n := msb u + 3 - E) (by omega) (by omega)]
  omega

/-- The main value of an aligned magnitude is the exact magnitude rounded to 53 bits. -/
theorem Packable.roundsTo_mainValue (h : Packable E u) (e : Int) {i k : Nat} (hik : msb u + i = 52 + k) :
    RoundsTo (u * 2 ^ i) k (mainValue e (alignedUnits E u)) := by
  have hmsb := h.msb_alignedUnits
  have hmsb8 : msb (u * 8) = msb u + 3 := msb_mul_two_pow h.ne_zero 3
  suffices hround : RoundsTo (u * 8 * 2 ^ i) (k + 3) (mainValue e (alignedUnits E u)) by
    rw [Nat.mul_right_comm] at hround
    exact roundsTo_of_mul_two_pow (j := 3) hround
  obtain hexact | hhigh := h.kept
  · have hz : u * 8 = alignedUnits E u * 2 ^ E := by
      rw [alignedUnits, srs_exact (Nat.mod_eq_zero_of_dvd hexact), Nat.div_mul_cancel hexact]
    rw [hz, mul_assoc, ← pow_add]
    exact roundsTo_mainValue_scaled e (by omega)
  · have hle : 51 + E ≤ msb u := (Nat.le_log2 h.ne_zero).2 hhigh
    have hround := roundsTo_mul_two_pow i (roundsTo_mainValue_srs e (m := u * 8) (j := E) (by omega))
    rwa [show msb (u * 8) - 52 + i = k + 3 by omega] at hround

/-! ### What pack makes of an aligned magnitude -/

/-- The magnitude, as bits 62:0, of a main value `q` scaled by `2^j` units, or that of the infinity (R60 to
R62). A main value of `2^53` counts as `2^52` at the next exponent. -/
def roundedMagnitude (j q : Nat) : Nat := min (j * 2 ^ 52 + q) (2047 * 2 ^ 52)

/-- The carry into the exponent field gives the next pattern (R60, R62). -/
theorem packExponent_of_scaled (s : Sign) {j q : Nat} (hq : 2 ^ 52 ≤ q) (hq' : q ≤ 2 ^ 53) {main : Nat}
    {e : Int} (hcarry : propagateCarry ((j : Int) - 1022) q = ⟨main, e⟩) :
    (packExponent s e main).result = withSign s (BitVec.ofNat 63 (roundedMagnitude j q)) := by
  obtain ⟨main', e', hcarry', hplace, hmain, hmain'⟩ := propagateCarry_spec ((j : Int) - 1022) hq hq'
  rw [hcarry] at hcarry'
  obtain ⟨rfl, rfl⟩ := Scaled.mk.inj hcarry'
  have hbits : ((e + 1023) * 2 ^ 52 : Int) + (main - 2 ^ 52 : Int) = j * 2 ^ 52 + q := by
    split_ifs at hplace with hq53 <;> omega
  apply BitVec.eq_of_toNat_eq
  rw [withSign_ofNat_toNat s (by rw [roundedMagnitude]; omega), roundedMagnitude]
  obtain ⟨h, hpack⟩ | ⟨hlow, hhigh, hpack⟩ | ⟨h, -⟩ := packExponent_cases s e main
  · rw [hpack, infPattern_toNat]
    omega
  · rw [hpack, normalPattern_toNat s (by omega) hmain hmain']
    omega
  · omega

/-- A magnitude of at least `2^52` units is rounded once, to 53 bits. -/
theorem Packable.packUnits_result_of_le (h : Packable E u) (s : Sign) (hmsb : 52 ≤ msb u) :
    ∃ q, RoundsTo u (msb u - 52) q ∧ 2 ^ 52 ≤ q ∧ q ≤ 2 ^ 53 ∧
      (packUnits s E u).result = withSign s (BitVec.ofNat 63 (roundedMagnitude (msb u - 52) q)) := by
  have hz := eight_le_alignedUnits_iff.2 h.step_le
  have hround := h.roundsTo_mainValue ((E : Int) - 1022) (i := 0) (k := msb u - 52) (by omega)
  rw [pow_zero, mul_one] at hround
  obtain ⟨hq, hq'⟩ := mainValue_bounds ((E : Int) - 1022) (m := alignedUnits E u) (by omega)
  have hexp : (E : Int) - 1022 + msb (alignedUnits E u) - 55 = ((msb u - 52 : Nat) : Int) - 1022 := by
    have := h.msb_alignedUnits
    omega
  refine ⟨_, hround, hq, hq', ?_⟩
  obtain ⟨main, e, hcarry⟩ : ∃ main e, propagateCarry ((E : Int) - 1022 + msb (alignedUnits E u) - 55)
      (mainValue ((E : Int) - 1022) (alignedUnits E u)) = ⟨main, e⟩ := ⟨_, _, rfl⟩
  rw [packUnits, pack_result s _ hz hcarry]
  rw [hexp] at hcarry
  exact packExponent_of_scaled s hq hq' hcarry

/-- A smaller magnitude is a whole number of units of the subnormals, so both roundings are exact (R63,
R79). -/
theorem Packable.packUnits_result_of_lt (h : Packable E u) (s : Sign) (hmsb : msb u < 52) :
    (packUnits s E u).result = withSign s (BitVec.ofNat 63 u) := by
  have hz := eight_le_alignedUnits_iff.2 h.step_le
  have hmain : mainValue ((E : Int) - 1022) (alignedUnits E u) = u * 2 ^ (52 - msb u) :=
    eq_of_roundsTo_zero (h.roundsTo_mainValue _ (by omega))
  have hexp : (E : Int) - 1022 + msb (alignedUnits E u) - 55 = (msb u : Int) - 1074 := by
    have := h.msb_alignedUnits
    omega
  have hlt : u * 2 ^ (52 - msb u) < 2 ^ 53 := by
    have hmsb' := msb_mul_two_pow h.ne_zero (52 - msb u)
    have := lt_two_pow_msb_succ (u * 2 ^ (52 - msb u))
    rwa [hmsb', show msb u + (52 - msb u) + 1 = 53 by omega] at this
  rw [packUnits, pack_result s _ hz (main := u * 2 ^ (52 - msb u)) (e' := (msb u : Int) - 1074)
    (by rw [hexp, hmain, propagateCarry_of_ne _ hlt.ne])]
  obtain ⟨hge, -⟩ | ⟨hge, -, -⟩ | ⟨-, hpack⟩ := packExponent_cases s ((msb u : Int) - 1074)
    (u * 2 ^ (52 - msb u))
  · omega
  · omega
  · rw [hpack, show (-1022 - ((msb u : Int) - 1074)).toNat = 52 - msb u by omega,
      packSubnormal_of_exact s u (by omega) (by omega)]

/-- Less than one step at the common exponent has no main value and packs to a zero (R57). -/
theorem packUnits_of_lt_step (s : Sign) (h : u < 2 ^ E) : packUnits s E u = ⟨zeroPattern s, []⟩ :=
  packOfZeroMain s _ _ (not_le.1 (mt eight_le_alignedUnits_iff.1 h.not_ge))

end

end Sys2Proof.Machine
end

section
/-! The exact sum of two finite nonzero operands against the alignment: it packs as it is, but for the exact
cancellation and the cancellation below one unit (spec/41_add_sub.md R77, R79). -/

namespace Sys2Proof.Machine

/-! ### Neighbours across a power of two -/

/-- In magnitude `a` is `2^k` with `k >= -1021`, and `b` its neighbour toward zero (R77). -/
def OneAbove (a b : Bits64) : Prop :=
  magnitudeOf a = magnitudeOf b + 1 ∧ magnitudeOf a % 2 ^ 52 = 0 ∧ 2 ^ 53 ≤ magnitudeOf a

theorem cancelsBelowUnit_iff (a b : Bits64) :
    CancelsBelowUnit a b ↔ signField a ≠ signField b ∧ (OneAbove a b ∨ OneAbove b a) := Iff.rfl

theorem oneAbove_iff (a b : Bits64) :
    OneAbove a b ↔ expIndex a = expIndex b + 1 ∧ significandOf a = 2 ^ 52 ∧
      significandOf b = 2 ^ 53 - 1 := by
  have hA := significandOf_lt a
  have hB := significandOf_lt b
  have hA' := le_significandOf (p := a)
  have hB' := le_significandOf (p := b)
  rw [OneAbove, magnitudeOf_eq, magnitudeOf_eq]
  constructor
  · rintro ⟨hnext, hpower, hbig⟩
    obtain hb | hb := eq_or_ne (expIndex b) 0
    · omega
    · have := hB' hb
      omega
  · rintro ⟨hexp, hsigA, hsigB⟩
    omega

/-- The exact difference is then half a step of the larger exponent. -/
theorem unitsAbs_of_oneAbove {a b : Bits64} (h : OneAbove a b) :
    unitsAbs a = unitsAbs b + 2 ^ expIndex b := by
  obtain ⟨hexp, hsigA, hsigB⟩ := (oneAbove_iff a b).1 h
  rw [unitsAbs, unitsAbs, hexp, hsigA, hsigB, pow_succ]
  omega

/-! ### The cancellation below one unit (R57, R77) -/

theorem addResponse_of_oneAbove (p : Params) {a b : Bits64} (ha : IsFiniteNonzero a)
    (hb : IsFiniteNonzero b) (hs : signField a ≠ signField b) (h : OneAbove a b) :
    addResponse p a b = ⟨zeroPattern (signField a), [.align, .subAB]⟩ := by
  obtain ⟨hexp, -, -⟩ := (oneAbove_iff a b).1 h
  have hunits := unitsAbs_of_oneAbove h
  have hpos := Nat.two_pow_pos (expIndex b)
  have hcommon : commonIndex a b = expIndex b + 1 := by
    rw [commonIndex]
    omega
  have hstep : unitsAbs a - unitsAbs b < 2 ^ commonIndex a b := by
    rw [hcommon, pow_succ]
    omega
  have htag : alignTagOf a b = [.align] := if_neg (by omega)
  obtain ⟨hs', -⟩ | ⟨-, -, hr⟩ | ⟨-, hlt, -⟩ | ⟨-, heq, -⟩ := addResponse_cases p ha hb
  · exact absurd hs' hs
  · rw [hr, packUnits_of_lt_step _ hstep, htag]
    rfl
  · omega
  · omega

theorem addResponse_of_oneAbove_right (p : Params) {a b : Bits64} (ha : IsFiniteNonzero a)
    (hb : IsFiniteNonzero b) (hs : signField a ≠ signField b) (h : OneAbove b a) :
    addResponse p a b = ⟨zeroPattern (signField b), [.align, .subBA]⟩ := by
  rw [addResponse_swap_of_isFiniteNonzero p hb ha, addResponse_of_oneAbove p hb ha (Ne.symm hs) h]
  rfl

theorem magnitudeOf_flipSign (p : Bits64) : magnitudeOf (flipSign p) = magnitudeOf p :=
  congrArg BitVec.toNat (magnitudeField_flipSign p)

theorem isFiniteNonzero_flipSign {p : Bits64} (h : IsFiniteNonzero p) : IsFiniteNonzero (flipSign p) :=
  (isFiniteNonzero_effectiveB_iff true p).2 h

/-- The pattern before a nonzero fraction-free one is its neighbour toward zero. -/
theorem pred_fields {x : Bits64} (hexp : 2 ≤ expField x) (hfrac : fracField x = 0) :
    signField (x - 1#64) = signField x ∧ expField (x - 1#64) = expField x - 1 ∧
      fracField (x - 1#64) = 2 ^ 52 - 1 := by
  have hx := toNat_eq_fields x
  have hlt := expField_lt x
  have hone : (1#64).toNat = 1 := rfl
  have hnum : (x - 1#64).toNat = x.toNat - 1 := by
    rw [BitVec.toNat_sub_of_le (by rw [BitVec.le_def]; omega), hone]
  have hsign : (signField (x - 1#64)).toNat = (signField x).toNat := by
    rw [signField_toNat, hnum]
    have := Bool.toNat_lt (signField x)
    omega
  have hinj : ∀ s t : Bool, s.toNat = t.toNat → s = t := by decide
  refine ⟨hinj _ _ hsign, ?_, ?_⟩
  · rw [expField_eq (x - 1#64), hnum]
    omega
  · rw [fracField_eq (x - 1#64), hnum]
    omega

/-- Settles O27: the operands are neighbours across a power of two, of opposite sign after the flip. -/
theorem cancellationBelowUnit : Obligations.CancellationBelowUnit := by
  intro x s hexp hfin hfrac
  replace hfrac : fracField x = 0 := (fracBits_eq_iff x 0#52).1 hfrac
  replace hexp : 2 ≤ expField x := hexp
  obtain ⟨hsign, hexpY, hfracY⟩ := pred_fields hexp hfrac
  have hmax := (isFinite_iff x).1 hfin
  have hlt := expField_lt x
  have hx : IsFiniteNonzero x := ⟨hfin, by rw [isZero_iff]; omega⟩
  have hy : IsFiniteNonzero (x - 1#64) := ⟨by rw [isFinite_iff]; omega, by rw [isZero_iff]; omega⟩
  have hmag : ∀ p : Bits64, magnitudeOf p = expField p * 2 ^ 52 + fracField p := magnitudeField_toNat
  have habove : OneAbove x (x - 1#64) := by
    rw [OneAbove, hmag, hmag]
    omega
  refine ⟨?larger, ?smaller⟩
  case larger =>
    have hans := answers_addSubInstr true x (x - 1#64) s
    have hopp : signField x ≠ signField (flipSign (x - 1#64)) := by simp [hsign]
    have habove' : OneAbove x (flipSign (x - 1#64)) := by rwa [OneAbove, magnitudeOf_flipSign]
    exact addResponse_of_oneAbove Config.params hx (isFiniteNonzero_flipSign hy) hopp habove' ▸ hans
  case smaller =>
    have hans := answers_addSubInstr true (x - 1#64) x s
    have hopp : signField (x - 1#64) ≠ signField (flipSign x) := by simp [hsign]
    have habove' : OneAbove (flipSign x) (x - 1#64) := by rwa [OneAbove, magnitudeOf_flipSign]
    have hr := addResponse_of_oneAbove_right Config.params hy (isFiniteNonzero_flipSign hx) hopp habove'
    rw [signField_flipSign] at hr
    exact hr ▸ hans

/-! ### Every other sum packs as it is (R79) -/

/-- `u` is the sum of the magnitudes or their difference. -/
def IsSumOrDifference (u x y : Nat) : Prop := u = x + y ∨ x = u + y ∨ y = u + x

theorem IsSumOrDifference.symm {u x y : Nat} (h : IsSumOrDifference u x y) :
    IsSumOrDifference u y x := by
  rw [IsSumOrDifference] at h ⊢
  omega

/-- A sum or difference of multiples is a multiple. -/
theorem IsSumOrDifference.of_mul {u x y c : Nat} (hc : 0 < c) (h : IsSumOrDifference u (x * c) (y * c)) :
    ∃ v, u = v * c ∧ IsSumOrDifference v x y := by
  obtain h | h | h := h
  · exact ⟨x + y, by rw [h, Nat.add_mul], .inl rfl⟩
  · have hle : y ≤ x := Nat.le_of_mul_le_mul_right (by omega) hc
    exact ⟨x - y, by rw [Nat.sub_mul]; omega, .inr (.inl (by omega))⟩
  · have hle : x ≤ y := Nat.le_of_mul_le_mul_right (by omega) hc
    exact ⟨y - x, by rw [Nat.sub_mul]; omega, .inr (.inr (by omega))⟩

/-- At equal exponents every sum is a whole number of steps. -/
theorem packable_of_expIndex_eq {a b : Bits64} (hidx : expIndex a = expIndex b) {u : Nat} (hu : u ≠ 0)
    (hsum : IsSumOrDifference u (unitsAbs a) (unitsAbs b)) : Packable (expIndex a) u := by
  have hA : 2 ^ expIndex a ∣ unitsAbs a := Nat.dvd_mul_left _ _
  have hB : 2 ^ expIndex a ∣ unitsAbs b := hidx ▸ Nat.dvd_mul_left _ _
  have hdvd : 2 ^ expIndex a ∣ u := by
    obtain rfl | h | h := hsum
    · exact hA.add hB
    · exact (Nat.dvd_add_left hB).1 (h ▸ hA)
    · exact (Nat.dvd_add_left hA).1 (h ▸ hB)
  exact ⟨Nat.le_of_dvd (Nat.pos_of_ne_zero hu) hdvd, .inl (hdvd.mul_right 8)⟩

/-- At exponents that differ by one a sum is a whole number of half steps; of a single one only when the
larger operand is a power of two and the other its neighbour. -/
theorem packable_of_expIndex_succ {a b : Bits64} (hidx : expIndex a = expIndex b + 1) {u : Nat}
    (hu : u ≠ 0) (hsum : IsSumOrDifference u (unitsAbs a) (unitsAbs b)) :
    Packable (expIndex a) u ∨ (unitsAbs a = u + unitsAbs b ∧ OneAbove a b) := by
  have hsigA : 2 ^ 52 ≤ significandOf a := le_significandOf (by omega)
  have hsigB := significandOf_lt b
  have hpos := Nat.two_pow_pos (expIndex b)
  have hA : unitsAbs a = significandOf a * 2 * 2 ^ expIndex b := by
    rw [unitsAbs, hidx, pow_succ]
    ring
  rw [hA] at hsum
  obtain ⟨v, rfl, hv⟩ := hsum.of_mul hpos
  rw [IsSumOrDifference] at hv
  obtain hone | htwo : v = 1 ∨ 2 ≤ v := by
    have : v ≠ 0 := by
      rintro rfl
      exact hu (Nat.zero_mul _)
    omega
  · obtain ⟨hpowA, hpowB⟩ : significandOf a = 2 ^ 52 ∧ significandOf b = 2 ^ 53 - 1 := by omega
    refine .inr ⟨?_, (oneAbove_iff a b).2 ⟨hidx, hpowA, hpowB⟩⟩
    rw [hone, hA, unitsAbs, hpowA, hpowB]
    omega
  · refine .inl ⟨?_, .inl ⟨v * 4, ?_⟩⟩
    · rw [hidx, pow_succ, Nat.mul_comm]
      exact Nat.mul_le_mul_right _ htwo
    · rw [hidx, pow_succ]
      ring

/-- At exponents further apart the high bits of the larger operand outweigh the smaller operand. -/
theorem packable_of_expIndex_far {a b : Bits64} (hidx : expIndex b + 2 ≤ expIndex a) {u : Nat}
    (hsum : IsSumOrDifference u (unitsAbs a) (unitsAbs b)) : Packable (expIndex a) u := by
  have hA : 2 ^ 52 * 2 ^ expIndex a ≤ unitsAbs a :=
    Nat.mul_le_mul_right _ (le_significandOf (by omega))
  have hB : unitsAbs b < 2 ^ 53 * 2 ^ expIndex b :=
    Nat.mul_lt_mul_of_pos_right (significandOf_lt b) (Nat.two_pow_pos _)
  have hstep : 2 ^ expIndex b * 2 ^ 2 ≤ 2 ^ expIndex a := by
    rw [← pow_add]
    exact Nat.pow_le_pow_right (by decide) hidx
  have hpos := Nat.two_pow_pos (expIndex a)
  have hhigh : 2 ^ 51 * 2 ^ expIndex a ≤ u := by
    rw [IsSumOrDifference] at hsum
    omega
  exact ⟨by omega, .inr (by rwa [pow_add])⟩

/-- The three distances of the exponents together. -/
theorem packable_or_oneAbove {a b : Bits64} (hidx : expIndex b ≤ expIndex a) {u : Nat} (hu : u ≠ 0)
    (hsum : IsSumOrDifference u (unitsAbs a) (unitsAbs b)) :
    Packable (expIndex a) u ∨ (unitsAbs a = u + unitsAbs b ∧ OneAbove a b) := by
  obtain heq | hsucc | hfar : expIndex a = expIndex b ∨ expIndex a = expIndex b + 1 ∨
      expIndex b + 2 ≤ expIndex a := by omega
  · exact .inl (packable_of_expIndex_eq heq hu hsum)
  · exact packable_of_expIndex_succ hsucc hu hsum
  · exact .inl (packable_of_expIndex_far hfar hsum)

/-- In either order of the exponents. -/
theorem packable_or_neighbours {a b : Bits64} {u : Nat} (hu : u ≠ 0)
    (hsum : IsSumOrDifference u (unitsAbs a) (unitsAbs b)) :
    Packable (commonIndex a b) u ∨ (unitsAbs a = u + unitsAbs b ∧ OneAbove a b) ∨
      (unitsAbs b = u + unitsAbs a ∧ OneAbove b a) := by
  rw [commonIndex]
  obtain h | h := le_total (expIndex b) (expIndex a)
  · rw [max_eq_left h]
    exact (packable_or_oneAbove h hu hsum).imp_right .inl
  · rw [max_eq_right h]
    exact (packable_or_oneAbove h hu hsum.symm).imp_right .inr

/-- The exact sum, in units of `2^-1074`. -/
def sumUnits (a b : Bits64) : Int :=
  applySign (signField a) (unitsAbs a) + applySign (signField b) (unitsAbs b)

theorem applySign_add (s : Sign) (m n : Nat) : applySign s m + applySign s n = applySign s (m + n) := by
  rw [applySign_eq_mul, applySign_eq_mul, applySign_eq_mul, ← mul_add, Nat.cast_add]

/-- Of opposite signs the larger magnitude's is kept. -/
theorem applySign_add_of_ne {s t : Sign} (h : s ≠ t) {m n : Nat} (hle : n ≤ m) :
    applySign s m + applySign t n = applySign s (m - n) := by
  have ht : applySign t n = -applySign s n := by
    obtain rfl := Bool.not_eq.2 h.symm
    cases t <;> simp [applySign]
  rw [ht, applySign_eq_mul, applySign_eq_mul, applySign_eq_mul, Nat.cast_sub hle, mul_sub, sub_eq_add_neg]

theorem sumUnits_of_cancel {a b : Bits64} (hs : signField a ≠ signField b)
    (h : unitsAbs a = unitsAbs b) : sumUnits a b = 0 := by
  rw [sumUnits, applySign_add_of_ne hs h.ge, h, Nat.sub_self, applySign_eq_mul, Nat.cast_zero, mul_zero]

/-- The sum cancels exactly, or below one unit, or it is packed as it is. -/
theorem addResponse_packs_sum (p : Params) {a b : Bits64} (ha : IsFiniteNonzero a)
    (hb : IsFiniteNonzero b) (hbelow : ¬ CancelsBelowUnit a b) :
    (signField a ≠ signField b ∧ unitsAbs a = unitsAbs b) ∨
    ∃ s u, Packable (commonIndex a b) u ∧ sumUnits a b = applySign s u ∧
      (addResponse p a b).result = (packUnits s (commonIndex a b) u).result := by
  have hposA := unitsAbs_pos ha
  have hposB := unitsAbs_pos hb
  rw [cancelsBelowUnit_iff, not_and, not_or] at hbelow
  obtain ⟨hs, hr⟩ | ⟨hs, hlt, hr⟩ | ⟨hs, hlt, hr⟩ | ⟨hs, heq, -⟩ := addResponse_cases p ha hb
  case inl =>
    have hsum : sumUnits a b = applySign (signField a) (unitsAbs a + unitsAbs b) := by
      rw [sumUnits, ← hs, applySign_add]
    obtain hpack | ⟨h, -⟩ | ⟨h, -⟩ := packable_or_neighbours (a := a) (b := b)
      (u := unitsAbs a + unitsAbs b) (by omega) (.inl rfl)
    · exact .inr ⟨_, _, hpack, hsum, by rw [hr, emitBefore_result]⟩
    · omega
    · omega
  case inr.inl =>
    have hsum : sumUnits a b = applySign (signField a) (unitsAbs a - unitsAbs b) :=
      applySign_add_of_ne hs hlt.le
    obtain hpack | ⟨-, h⟩ | ⟨-, h⟩ := packable_or_neighbours (a := a) (b := b)
      (u := unitsAbs a - unitsAbs b) (by omega) (.inr (.inl (by omega)))
    · exact .inr ⟨_, _, hpack, hsum, by rw [hr, emitBefore_result]⟩
    · exact absurd h (hbelow hs).1
    · exact absurd h (hbelow hs).2
  case inr.inr.inl =>
    have hsum : sumUnits a b = applySign (signField b) (unitsAbs b - unitsAbs a) := by
      rw [sumUnits, add_comm, applySign_add_of_ne (Ne.symm hs) hlt.le]
    obtain hpack | ⟨-, h⟩ | ⟨-, h⟩ := packable_or_neighbours (a := a) (b := b)
      (u := unitsAbs b - unitsAbs a) (by omega) (.inr (.inr (by omega)))
    · exact .inr ⟨_, _, hpack, hsum, by rw [hr, emitBefore_result]⟩
    · exact absurd h (hbelow hs).1
    · exact absurd h (hbelow hs).2
  case inr.inr.inr => exact .inl ⟨hs, heq⟩

end Sys2Proof.Machine
end

section
/-! The value nearest to an exact result, a tie going to the even pattern (spec/41_add_sub.md R79). -/

namespace Sys2Proof.Machine

/-! ### Nearest on a grid -/

/-- When `q` steps of `g` are off `x` by at most half a step, they are nearest to `x` among the multiples of `g`
and everything below the binade of `x`; as near is only another multiple, and then `q` is even. -/
theorem nearest_of_halfStep {g x w : Int} {q : Nat} (hg : 0 < g) (hhalf : 2 * |q * g - x| ≤ g)
    (htie : 2 * |q * g - x| = g → q % 2 = 0) (hx : 2 ^ 52 * g ≤ x) (hw : g ∣ w ∨ w ≤ 2 ^ 52 * g) :
    |q * g - x| ≤ |w - x| ∧ (w ≠ q * g → |w - x| = |q * g - x| → q % 2 = 0) := by
  have hmultiple : ∀ c : Int, c * g ≠ q * g → g ≤ |c * g - x| + |q * g - x| := by
    intro c hc
    have hone : 1 ≤ |c - q| := Int.one_le_abs (sub_ne_zero.2 fun h => hc (by rw [h]))
    calc g ≤ |c - q| * g := le_mul_of_one_le_left hg.le hone
      _ = |(c * g - x) - (q * g - x)| := by
          rw [← abs_of_pos hg, ← abs_mul, abs_of_pos hg]
          ring_nf
      _ ≤ |c * g - x| + |q * g - x| := abs_sub _ _
  have hcase : ∀ c : Int, |q * g - x| ≤ |c * g - x| ∧
      (c * g ≠ q * g → |c * g - x| = |q * g - x| → q % 2 = 0) := by
    intro c
    obtain heq | hne := eq_or_ne (c * g) (q * g)
    · exact ⟨by rw [heq], fun h => absurd heq h⟩
    · have := hmultiple c hne
      exact ⟨by omega, fun _ h => htie (by omega)⟩
  obtain ⟨c, rfl⟩ | hle := hw
  · rw [mul_comm g c]
    exact hcase c
  · obtain rfl | hlt := hle.eq_or_lt
    · exact hcase (2 ^ 52)
    · have hbelow := (hcase (2 ^ 52)).1
      rw [abs_of_nonpos (by omega : 2 ^ 52 * g - x ≤ 0)] at hbelow
      rw [abs_of_neg (by omega : w - x < 0)]
      exact ⟨by omega, fun _ _ => by omega⟩

/-- A finite value is a multiple of `2^j` units or at most `2^(52 + j)` units: it has 53 bits. -/
theorem dvd_or_le_of_unitsAbs (p : Bits64) (s : Sign) (j : Nat) :
    (2 ^ j : Int) ∣ applySign s (unitsAbs p) ∨ applySign s (unitsAbs p) ≤ 2 ^ 52 * 2 ^ j := by
  obtain hle | hlt := le_or_gt j (expIndex p)
  · have hdvd : 2 ^ j ∣ unitsAbs p := (Nat.pow_dvd_pow 2 hle).mul_left _
    have hcast : (2 ^ j : Int) ∣ (unitsAbs p : Int) := by exact_mod_cast hdvd
    left
    cases s
    · exact hcast
    · exact hcast.neg_right
  · have hnat : unitsAbs p ≤ 2 ^ 52 * 2 ^ j := by
      calc unitsAbs p ≤ 2 ^ 53 * 2 ^ expIndex p := Nat.mul_le_mul_right _ (significandOf_lt p).le
        _ = 2 ^ 52 * 2 ^ (expIndex p + 1) := by ring
        _ ≤ 2 ^ 52 * 2 ^ j := Nat.mul_le_mul_left _ (Nat.pow_le_pow_right (by decide) hlt)
    have hcast : (unitsAbs p : Int) ≤ 2 ^ 52 * 2 ^ j := by exact_mod_cast hnat
    right
    cases s
    · exact hcast
    · exact (neg_nonpos.2 (Int.natCast_nonneg _)).trans (by positivity)

/-! ### Nearest among the patterns -/

theorem isNearest_of_units_eq {r : Bits64} {x : Int} (h : units r = some x) : IsNearest r x 1 := by
  refine ⟨x, h, fun q uq _ => ?_⟩
  rw [mul_one, mul_one, sub_self, abs_zero]
  refine ⟨abs_nonneg _, fun hne htie => ?_⟩
  exact absurd (sub_eq_zero.1 (abs_eq_zero.1 htie)) hne

/-- Distances do not change when all signs are flipped. -/
theorem abs_applySign_sub (s t : Sign) (m x : Nat) (d : Int) :
    |applySign t m * d - applySign s x| = |applySign (t ^^ s) m * d - x| := by
  cases s
  · simp [applySign]
  · rw [← abs_neg]
    cases t <;> simp [applySign] <;> ring_nf

theorem applySign_inj_iff (s t : Sign) (m n : Nat) :
    applySign t m = applySign s n ↔ applySign (t ^^ s) m = n := by
  cases s <;> cases t <;> simp [applySign]

/-- A pattern of `q × 2^j` units is nearest to `x / d` units when `q` is `x / (2^j × d)` rounded to 53 bits. -/
theorem isNearest_of_halfStep {r : Bits64} {s : Sign} {j q x : Nat} {d : Int} (hd : 0 < d)
    (hr : units r = some (applySign s (q * 2 ^ j))) (hhalf : 2 * |q * (2 ^ j * d) - x| ≤ 2 ^ j * d)
    (htie : 2 * |q * (2 ^ j * d) - x| = 2 ^ j * d → q % 2 = 0) (hx : 2 ^ 52 * (2 ^ j * d) ≤ x)
    (heven : q % 2 = 0 → r.getLsbD 0 = false) : IsNearest r (applySign s x) d := by
  refine ⟨_, hr, fun p up hp => ?_⟩
  obtain rfl := Option.some.inj ((units_of_isFinite (isFinite_of_units hp)).symm.trans hp)
  have hstep : (0 : Int) < 2 ^ j * d := by positivity
  have hmul : applySign false (q * 2 ^ j) * d = q * (2 ^ j * d) := by
    rw [applySign_eq_mul]
    push_cast
    ring
  have hgrid : (2 ^ j * d : Int) ∣ applySign (signField p ^^ s) (unitsAbs p) * d ∨
      applySign (signField p ^^ s) (unitsAbs p) * d ≤ 2 ^ 52 * (2 ^ j * d) := by
    refine (dvd_or_le_of_unitsAbs p (signField p ^^ s) j).imp (mul_dvd_mul_right · d) fun hle => ?_
    rw [← mul_assoc]
    exact mul_le_mul_of_nonneg_right hle hd.le
  obtain ⟨hle, hodd⟩ := nearest_of_halfStep hstep hhalf htie hx hgrid
  rw [abs_applySign_sub, abs_applySign_sub, Bool.xor_self, hmul, Ne, applySign_inj_iff]
  refine ⟨hle, fun hne heq => heven (hodd (fun h => hne ?_) heq)⟩
  rw [← hmul] at h
  exact mul_right_cancel₀ hd.ne' h

/-! ### The values that pack gives -/

section

variable (s : Sign)

/-- Bits 62:0 below the smallest normal number are the units themselves. -/
theorem units_withSign_of_lt {f : Nat} (hf : f < 2 ^ 52) :
    units (withSign s (BitVec.ofNat 63 f)) = some (applySign s f) := by
  have hbits : (BitVec.ofNat 63 f).toNat = f := by
    rw [BitVec.toNat_ofNat]
    omega
  have hexp : expField (withSign s (BitVec.ofNat 63 f)) = 0 := by
    rw [expField_withSign, hbits]
    omega
  have hfrac : fracField (withSign s (BitVec.ofNat 63 f)) = f := by
    rw [fracField_withSign, hbits]
    omega
  rw [units_of_expField_zero hexp, signField_withSign, hfrac]

/-- The fields of `j × 2^52 + q` stand for `q × 2^j`. -/
theorem value_of_scaled {j q : Nat} (hq : 2 ^ 52 ≤ q) (hq' : q ≤ 2 ^ 53) :
    (2 ^ 52 + (j * 2 ^ 52 + q) % 2 ^ 52) * 2 ^ ((j * 2 ^ 52 + q) / 2 ^ 52 - 1) = q * 2 ^ j := by
  obtain hcarry | hlt := hq'.eq_or_lt
  · have hexp : (j * 2 ^ 52 + q) / 2 ^ 52 - 1 = j + 1 := by omega
    have hfrac : (j * 2 ^ 52 + q) % 2 ^ 52 = 0 := by omega
    rw [hexp, hfrac, hcarry, pow_succ' 2 j, ← mul_assoc]
    rfl
  · have hexp : (j * 2 ^ 52 + q) / 2 ^ 52 - 1 = j := by omega
    have hfrac : 2 ^ 52 + (j * 2 ^ 52 + q) % 2 ^ 52 = q := by omega
    rw [hexp, hfrac]

/-- Bits 62:0 of a main value at its exponent, a main value of `2^53` being `2^52` at the next one. -/
theorem units_withSign_of_scaled {j q : Nat} (hq : 2 ^ 52 ≤ q) (hq' : q ≤ 2 ^ 53)
    (hmax : j * 2 ^ 52 + q < 2047 * 2 ^ 52) :
    units (withSign s (BitVec.ofNat 63 (roundedMagnitude j q))) = some (applySign s (q * 2 ^ j)) := by
  have hbits : (BitVec.ofNat 63 (roundedMagnitude j q)).toNat = j * 2 ^ 52 + q := by
    rw [roundedMagnitude, BitVec.toNat_ofNat]
    omega
  have hexp := expField_withSign s (BitVec.ofNat 63 (roundedMagnitude j q))
  have hfrac := fracField_withSign s (BitVec.ofNat 63 (roundedMagnitude j q))
  rw [hbits] at hexp hfrac
  rw [units_of_expField_normal (by omega) (by omega), signField_withSign]
  rw [hexp, hfrac, value_of_scaled hq hq']

theorem withSign_getLsbD_zero {f : Nat} (hf : f < 2 ^ 63) (heven : f % 2 = 0) :
    (withSign s (BitVec.ofNat 63 f)).getLsbD 0 = false := by
  rw [← BitVec.testBit_toNat, Nat.testBit_zero, withSign_ofNat_toNat s hf, decide_eq_false]
  omega

theorem isZero_withSign_ofNat_iff {f : Nat} (hf : f < 2 ^ 63) :
    IsZero (withSign s (BitVec.ofNat 63 f)) ↔ f = 0 := by
  rw [isZero_withSign_iff, ← BitVec.toNat_inj, BitVec.toNat_ofNat, Nat.mod_eq_of_lt hf]
  rfl

end

/-! ### Overflow (R61) -/

/-- A main value of the largest exponent carries out of it exactly from half a step below `2^1024` on. -/
theorem carry_iff_of_roundsTo {t u q : Nat} (ht : 0 < t) (hq' : q ≤ 2 ^ 53)
    (hhalf : 2 * |(q * (2 * t) : Int) - u| ≤ 2 * t)
    (htie : 2 * |(q * (2 * t) : Int) - u| = 2 * t → q % 2 = 0) :
    q < 2 ^ 53 ↔ u < 2 ^ 54 * t - t := by
  have hbound := abs_le.1 (show |(q * (2 * t) : Int) - u| ≤ t by omega)
  obtain hcarry | hlt := hq'.eq_or_lt
  · rw [hcarry] at hbound
    push_cast at hbound
    omega
  · have hle : (q : Int) * t ≤ (2 ^ 53 - 1) * t := by
      refine mul_le_mul_of_nonneg_right ?_ (by positivity)
      omega
    have hmul : (q : Int) * (2 * t) = 2 * (q * t) := by ring
    have hne : u ≠ 2 ^ 54 * t - t := by
      intro heq
      have hodd : (q : Int) = 2 ^ 53 - 1 :=
        mul_right_cancel₀ (b := (t : Int)) (by omega) (by omega)
      have herr : |(q * (2 * t) : Int) - u| = t := by
        rw [abs_of_nonpos (by omega), hmul]
        omega
      have := htie (by rw [herr])
      omega
    omega

/-- A magnitude rounds to less than `2^(54 + c)` exactly when it is more than half a step below. -/
theorem scaled_lt_iff (c : Nat) {u q : Nat} (hmsb : 52 ≤ msb u) (hround : RoundsTo u (msb u - 52) q)
    (hq : 2 ^ 52 ≤ q) (hq' : q ≤ 2 ^ 53) :
    (msb u - 52) * 2 ^ 52 + q < (c + 3) * 2 ^ 52 ↔ u < 2 ^ (54 + c) - 2 ^ c := by
  have hu : u ≠ 0 := by
    rintro rfl
    exact absurd hmsb (by decide)
  obtain ⟨hle, hlt⟩ := (msb_eq_iff hu).1 rfl
  have ht := Nat.two_pow_pos c
  rw [pow_add]
  obtain hsmall | htop | hbig : msb u + 1 ≤ 53 + c ∨ msb u = 52 + (c + 1) ∨ 54 + c ≤ msb u := by omega
  · have hpow : 2 ^ (msb u + 1) ≤ 2 ^ 53 * 2 ^ c := by
      rw [← pow_add]
      exact Nat.pow_le_pow_right (by decide) hsmall
    omega
  · rw [show msb u - 52 = c + 1 by omega, RoundsTo, pow_succ'] at hround
    have hcarry := carry_iff_of_roundsTo ht hq' (by exact_mod_cast hround.1)
      (fun h => hround.2 (by exact_mod_cast h))
    rw [← hcarry]
    omega
  · have hpow : 2 ^ 54 * 2 ^ c ≤ 2 ^ msb u := by
      rw [← pow_add]
      exact Nat.pow_le_pow_right (by decide) hbig
    omega

end Sys2Proof.Machine
end

section
/-! The result of ADD and SUB against the exact sum: nearest, exact where it is small, and zero exactly when
the operands cancel (spec/41_add_sub.md R77, R79). -/

namespace Sys2Proof.Machine

/-! ### What pack makes of an exact magnitude -/

section

variable {E u : Nat}

theorem lt_two_pow_of_msb_lt (h : msb u < 52) : u < 2 ^ 52 :=
  (lt_two_pow_msb_succ u).trans_le (Nat.pow_le_pow_right (by decide) h)

theorem eq_of_roundsTo_mul {x k q : Nat} (h : RoundsTo (x * 2 ^ k) k q) : q = x :=
  eq_of_roundsTo_zero (roundsTo_of_mul_two_pow (j := k) (by rwa [Nat.zero_add]))

/-- The threshold of overflow, `2^1024 - 2^970`, in units. -/
theorem scaled_lt_max_iff {q : Nat} (hmsb : 52 ≤ msb u) (hround : RoundsTo u (msb u - 52) q)
    (hq : 2 ^ 52 ≤ q) (hq' : q ≤ 2 ^ 53) :
    (msb u - 52) * 2 ^ 52 + q < 2047 * 2 ^ 52 ↔ u < 2 ^ 2098 - 2 ^ 2044 := by
  rw [show 2098 = 54 + 2044 from rfl]
  exact scaled_lt_iff 2044 hmsb hround hq hq'

theorem lt_scaled_of_msb_lt (c : Nat) (h : msb u < 52) : u < 2 ^ (54 + c) - 2 ^ c := by
  have hlt := lt_two_pow_of_msb_lt h
  have hpos := Nat.two_pow_pos c
  rw [pow_add]
  omega

theorem lt_overflow_of_msb_lt (h : msb u < 52) : u < 2 ^ 2098 - 2 ^ 2044 := by
  rw [show 2098 = 54 + 2044 from rfl]
  exact lt_scaled_of_msb_lt 2044 h

theorem withSign_roundedMagnitude_of_le {j q : Nat} (h : 2047 * 2 ^ 52 ≤ j * 2 ^ 52 + q) (s : Sign) :
    withSign s (BitVec.ofNat 63 (roundedMagnitude j q)) = infPattern s := by
  rw [roundedMagnitude, min_eq_right h]
  rfl

/-- Below the threshold pack gives a pattern nearest to the exact magnitude. -/
theorem Packable.isNearest (h : Packable E u) (s : Sign) (hu : u < 2 ^ 2098 - 2 ^ 2044) :
    IsNearest (packUnits s E u).result (applySign s u) 1 := by
  obtain hmsb | hmsb := lt_or_ge (msb u) 52
  · rw [h.packUnits_result_of_lt s hmsb]
    exact isNearest_of_units_eq (units_withSign_of_lt s (lt_two_pow_of_msb_lt hmsb))
  · obtain ⟨q, hround, hq, hq', hr⟩ := h.packUnits_result_of_le s hmsb
    have hmax := (scaled_lt_max_iff hmsb hround hq hq').2 hu
    have hbinade : 2 ^ 52 * 2 ^ (msb u - 52) ≤ u := by
      rw [← pow_add, Nat.add_sub_cancel' hmsb]
      exact two_pow_msb_le (Nat.pos_of_ne_zero h.ne_zero)
    rw [hr]
    refine isNearest_of_halfStep one_pos (units_withSign_of_scaled s hq hq' hmax) ?_ ?_ ?_ ?_
    · rw [mul_one]
      exact hround.1
    · rw [mul_one]
      exact hround.2
    · rw [mul_one]
      exact_mod_cast hbinade
    · intro heven
      rw [roundedMagnitude, min_eq_left hmax.le]
      exact withSign_getLsbD_zero s (by omega) (by omega)

/-- From the threshold on pack gives the infinity. -/
theorem Packable.overflows (h : Packable E u) (s : Sign) (hu : 2 ^ 2098 - 2 ^ 2044 ≤ u) :
    (packUnits s E u).result = infPattern s := by
  obtain hmsb | hmsb := lt_or_ge (msb u) 52
  · exact absurd (lt_overflow_of_msb_lt hmsb) hu.not_gt
  · obtain ⟨q, hround, hq, hq', hr⟩ := h.packUnits_result_of_le s hmsb
    have hmax := not_lt.1 (mt (scaled_lt_max_iff hmsb hround hq hq').1 hu.not_gt)
    rw [hr, withSign_roundedMagnitude_of_le hmax]

/-- A magnitude of at most 53 bits is kept. -/
theorem Packable.units_of_le (h : Packable E u) (s : Sign) (hu : u ≤ 2 ^ 53) :
    units (packUnits s E u).result = some (applySign s u) := by
  obtain hmsb | hmsb := lt_or_ge (msb u) 52
  · rw [h.packUnits_result_of_lt s hmsb]
    exact units_withSign_of_lt s (lt_two_pow_of_msb_lt hmsb)
  · obtain ⟨q, hround, hq, hq', hr⟩ := h.packUnits_result_of_le s hmsb
    have hle := two_pow_msb_le (Nat.pos_of_ne_zero h.ne_zero)
    have hmsb' : msb u ≤ 53 := (Nat.pow_le_pow_iff_right (by decide)).1 (hle.trans hu)
    have hvalue : q * 2 ^ (msb u - 52) = u := by
      obtain hmsb52 | hmsb53 : msb u = 52 ∨ msb u = 53 := by omega
      · rw [hmsb52] at hround ⊢
        rw [eq_of_roundsTo_zero hround]
        exact mul_one u
      · rw [hmsb53] at hle hround ⊢
        have heq : u = 2 ^ 52 * 2 ^ (53 - 52) := by omega
        rw [heq] at hround ⊢
        rw [eq_of_roundsTo_mul hround]
    rw [hr, units_withSign_of_scaled s hq hq' (by omega), hvalue]

/-- What is packed as it is does not pack to a zero. -/
theorem Packable.not_isZero (h : Packable E u) (s : Sign) : ¬ IsZero (packUnits s E u).result := by
  have hu := h.ne_zero
  obtain hmsb | hmsb := lt_or_ge (msb u) 52
  · have hlt := lt_two_pow_of_msb_lt hmsb
    rwa [h.packUnits_result_of_lt s hmsb, isZero_withSign_ofNat_iff s (by omega)]
  · obtain ⟨q, -, hq, hq', hr⟩ := h.packUnits_result_of_le s hmsb
    rw [hr, isZero_withSign_ofNat_iff s (by rw [roundedMagnitude]; omega), roundedMagnitude]
    omega

end

/-! ### The statements about the result -/

theorem units_zeroPattern (s : Sign) : units (zeroPattern s) = some 0 := by
  cases s <;> decide

theorem abs_applySign (s : Sign) (m : Nat) : |applySign s m| = m := by
  cases s <;> simp [applySign]

theorem decide_applySign_neg (s : Sign) {m : Nat} (hm : m ≠ 0) : decide (applySign s m < 0) = s := by
  cases s <;> simp [applySign, Nat.pos_of_ne_zero hm]

/-- The exact sum of the statements' operands. -/
theorem add_eq_sumUnits {a b : Bits64} {ua ub : Int} (ha : units a = some ua) (hb : units b = some ub) :
    ua + ub = sumUnits a b := by
  have hA := (units_of_isFinite (isFinite_of_units ha)).symm.trans ha
  have hB := (units_of_isFinite (isFinite_of_units hb)).symm.trans hb
  rw [← Option.some.inj hA, ← Option.some.inj hB, sumUnits]

theorem overflow_cast : ((2 ^ 2098 - 2 ^ 2044 : Nat) : Int) = 2 ^ 2098 - 2 ^ 2044 := by
  have hle : ∀ c : Nat, 2 ^ c ≤ 2 ^ (54 + c) := fun c => Nat.pow_le_pow_right (by decide) (by omega)
  rw [show 2098 = 54 + 2044 from rfl, Nat.cast_sub (hle 2044), Nat.cast_pow, Nat.cast_pow,
    Nat.cast_ofNat]

/-- Settles O33: on exact cancellation the result is the exact zero; any other sum packs as it is. -/
theorem addSubIsNearest : Obligations.AddSubIsNearest := by
  intro subtract a b s ua ub ha hb hua hub hbelow
  have hb' := (isFiniteNonzero_effectiveB_iff subtract b).2 hb
  refine ⟨_, answers_addSubInstr subtract a b s, ?_⟩
  rw [add_eq_sumUnits hua hub, ← overflow_cast]
  obtain ⟨hs, hcancel⟩ | ⟨sign, u, hpack, hsum, hr⟩ :=
    addResponse_packs_sum Config.params ha hb' hbelow
  · rw [addResponse_of_cancel _ ha hb' hs hcancel, sumUnits_of_cancel hs hcancel, abs_zero]
    have hpos : 0 < 2 ^ 2098 - 2 ^ 2044 := lt_overflow_of_msb_lt (u := 0) (by decide)
    refine ⟨fun _ => isNearest_of_units_eq (units_zeroPattern false), fun h => ?_⟩
    exact absurd (Int.ofNat_le.1 h) hpos.not_ge
  · rw [hr, hsum, abs_applySign, decide_applySign_neg sign hpack.ne_zero]
    exact ⟨fun h => hpack.isNearest sign (Int.ofNat_lt.1 h),
      fun h => hpack.overflows sign (Int.ofNat_le.1 h)⟩

/-- Settles O32: a sum that small has at most 53 bits in units of `2^-1074`. -/
theorem smallSumsAreExact : Obligations.SmallSumsAreExact := by
  intro subtract a b s ua ub ha hb hua hub hsmall hbelow
  have hb' := (isFiniteNonzero_effectiveB_iff subtract b).2 hb
  refine ⟨_, answers_addSubInstr subtract a b s, ?_⟩
  rw [add_eq_sumUnits hua hub] at hsmall ⊢
  obtain ⟨hs, hcancel⟩ | ⟨sign, u, hpack, hsum, hr⟩ :=
    addResponse_packs_sum Config.params ha hb' hbelow
  · rw [addResponse_of_cancel _ ha hb' hs hcancel, sumUnits_of_cancel hs hcancel, units_zeroPattern]
  · rw [hsum, abs_applySign] at hsmall
    rw [hr, hsum]
    exact hpack.units_of_le sign (by exact_mod_cast hsmall)

/-- Equal magnitudes in units are the same bits 62:0. -/
theorem magnitudeField_eq_of_unitsAbs_eq {a b : Bits64} (h : unitsAbs a = unitsAbs b) :
    magnitudeField a = magnitudeField b := by
  have hexp := expIndex_eq_of_unitsAbs_eq h
  rw [unitsAbs, unitsAbs, hexp] at h
  have hsig := Nat.eq_of_mul_eq_mul_right (Nat.two_pow_pos _) h
  have hmag : magnitudeOf a = magnitudeOf b := by
    rw [magnitudeOf_eq, magnitudeOf_eq, hexp, hsig]
  exact BitVec.eq_of_toNat_eq hmag

theorem eq_flipSign_iff (a b : Bits64) :
    b = flipSign a ↔ signField a ≠ signField b ∧ unitsAbs a = unitsAbs b := by
  constructor
  · rintro rfl
    exact ⟨by simp, (unitsAbs_flipSign a).symm⟩
  · rintro ⟨hs, h⟩
    rw [flipSign_eq_withSign, magnitudeField_eq_of_unitsAbs_eq h, Bool.not_eq.2 hs, withSign_fields]

theorem isZero_zeroPattern (s : Sign) : IsZero (zeroPattern s) :=
  (isZero_withSign_iff s 0#63).2 rfl

/-- Settles O28: both cancellations give a zero, and any other sum is packed as it is. -/
theorem sumIsZeroExactlyWhen : Obligations.SumIsZeroExactlyWhen := by
  intro subtract a b s ha hb
  have hb' := (isFiniteNonzero_effectiveB_iff subtract b).2 hb
  refine ⟨_, answers_addSubInstr subtract a b s, ?_⟩
  generalize effectiveB subtract b = b' at hb'
  rw [eq_flipSign_iff]
  constructor
  · intro hzero
    by_contra hnot
    obtain ⟨hcancel, hbelow⟩ := not_or.1 hnot
    obtain h | ⟨sign, u, hpack, -, hr⟩ := addResponse_packs_sum Config.params ha hb' hbelow
    · exact hcancel h
    · rw [hr] at hzero
      exact hpack.not_isZero sign hzero
  · rintro (⟨hs, h⟩ | hbelow)
    · rw [addResponse_of_cancel _ ha hb' hs h]
      exact isZero_zeroPattern _
    · obtain ⟨hs, h | h⟩ := (cancelsBelowUnit_iff a b').1 hbelow
      · rw [addResponse_of_oneAbove _ ha hb' hs h]
        exact isZero_zeroPattern _
      · rw [addResponse_of_oneAbove_right _ ha hb' hs h]
        exact isZero_zeroPattern _

end Sys2Proof.Machine
end

section
/-! The widening of MUL and DIV (spec/42_multiply.md R82). -/

namespace Sys2Proof.Machine

/-- Widening shifts by as many places as the highest set bit lies below bit 52, a normal significand by none. -/
theorem widen_eq (m : Nat) (e : Int) :
    widen m e = ⟨m * 2 ^ (52 - msb m), e - (52 - msb m : Nat)⟩ := by
  rw [widen]
  split_ifs with hsmall
  · simp only [Nat.shiftLeft_eq]
  · have hpos : m ≠ 0 := by omega
    have hmsb : 52 ≤ msb m := (Nat.le_log2 hpos).2 (Nat.le_of_not_lt hsmall)
    simp [Nat.sub_eq_zero_of_le hmsb]

theorem expIndex_le {p : Bits64} (h : IsFinite p) : expIndex p ≤ 2045 := by
  have hlt := expField_lt p
  rw [isFinite_iff] at h
  rw [expIndex]
  omega

/-- A finite pattern with its significand widened. -/
def widened (p : Bits64) : Scaled := widen (significandOf p) ((expIndex p : Int) - 1022)

/-- The places by which a finite pattern's significand is widened. -/
def widenShift (p : Bits64) : Nat := 52 - msb (significandOf p)

theorem widenShift_le (p : Bits64) : widenShift p ≤ 52 := Nat.sub_le _ _

theorem widened_exponent (p : Bits64) :
    (widened p).exponent = (expIndex p : Int) - 1022 - widenShift p := by
  rw [widened, widen_eq, widenShift]

theorem widened_significand (p : Bits64) :
    (widened p).significand = significandOf p * 2 ^ widenShift p := by
  rw [widened, widen_eq, widenShift]

theorem widened_significand_bounds {p : Bits64} (h : IsFiniteNonzero p) :
    2 ^ 52 ≤ (widened p).significand ∧ (widened p).significand < 2 ^ 53 :=
  ⟨le_widen_significand _ (mt (isZero_iff_significandOf p).2 h.2),
    widen_significand_lt _ (significandOf_lt p)⟩

/-- Widening keeps the value: the significand gains the zeros that the exponent loses. -/
theorem widened_significand_mul (p : Bits64) :
    (widened p).significand * 2 ^ expIndex p = unitsAbs p * 2 ^ widenShift p := by
  rw [widened_significand, unitsAbs, Nat.mul_right_comm]

/-- The sign and the widened significand that a statement reads off `unpack` are the pattern's own. -/
theorem sign_and_widen_of_unpack_finite {p : Bits64} {s : Sign} {e : Int} {m : Nat} {sub : Bool}
    (h : unpack p = .finite s e m sub) (hfin : IsFinite p) :
    s = signField p ∧ widen m e = widened p := by
  rw [unpack_of_isFinite hfin] at h
  cases h
  exact ⟨rfl, rfl⟩

theorem isFinite_of_unpack_finite {p : Bits64} {s : Sign} {e : Int} {m : Nat} {sub : Bool}
    (h : unpack p = .finite s e m sub) : IsFinite p :=
  isFinite_of_units (units_of_unpack_finite h)

/-- Settles O12: a nonzero significand is shifted until bit 52 is set, which a normal one has already. -/
theorem widenNormalises : Obligations.WidenNormalises := by
  intro p s e m sub hunpack hzero
  have hfin := isFinite_of_unpack_finite hunpack
  obtain ⟨hle, hlt⟩ := widened_significand_bounds ⟨hfin, hzero⟩
  have hexp := widened_exponent p
  have hindex := expIndex_le hfin
  have hshift := widenShift_le p
  rw [← (sign_and_widen_of_unpack_finite hunpack hfin).2] at hle hlt hexp
  refine ⟨hle, hlt, by omega, by omega, 52 - msb m, ?_, ?_, fun hm => ?_⟩
  · rw [widen_eq]
  · rw [widen_eq]
  · have hmsb : 52 ≤ msb m := (Nat.le_log2 (by omega)).2 hm
    omega

end Sys2Proof.Machine
end

section
/-! MUL by the classes of its operands (spec/42_multiply.md R81), and the sign of the results of MUL and DIV
(R80, R90). -/

namespace Sys2Proof.Machine

/-- A request completes with its own response, in every state. -/
theorem answers_of_respond_eq {i : Instr} {r : Response} (h : respond Config.params i = r) (s : State) :
    Answers i r s :=
  h ▸ exec_eq_enqueue i s

/-! ### The sign -/

theorem sign_unpack (p : Bits64) : (unpack p).sign = signField p := by
  rw [unpack]
  split_ifs <;> rfl

@[simp] theorem signField_zeroPattern (s : Sign) : signField (zeroPattern s) = s := signField_withSign s _
@[simp] theorem signField_infPattern (s : Sign) : signField (infPattern s) = s := signField_withSign s _
@[simp] theorem signField_nanPattern (p : Params) (s : Sign) : signField (nanPattern p s) = s :=
  signField_withSign s _

@[simp] theorem signField_packSubnormal (s : Sign) (main k : Nat) :
    signField (packSubnormal s main k).result = s := by
  rw [packSubnormal]
  split_ifs
  · exact signField_zeroPattern s
  · exact signField_withSign s _

/-- Pack puts its sign on the result on every way out (R57, R61 to R63). -/
@[simp] theorem signField_pack (s : Sign) (e : Int) (m : Nat) : signField (pack s e m).result = s := by
  by_cases hmain : m >>> 3 = 0
  · rw [pack, if_pos hmain]
    exact signField_zeroPattern s
  · rw [pack_of_main s e m hmain, emitBefore_result]
    generalize propagateCarry _ _ = c
    obtain ⟨-, h⟩ | ⟨-, -, h⟩ | ⟨-, h⟩ := packExponent_cases s c.exponent c.significand <;> rw [h]
    · exact signField_infPattern s
    · exact signField_withSign s _
    · exact signField_packSubnormal s _ _

theorem signField_mulResponse (p : Params) (a b : Bits64) :
    signField (mulResponse p a b).result = (signField a ^^ signField b) := by
  rw [← sign_unpack a, ← sign_unpack b, mulResponse]
  cases unpack a with
  | nan sA => exact signField_nanPattern p _
  | infinity sA =>
    cases unpack b with
    | nan sB => exact signField_nanPattern p _
    | infinity sB => exact signField_infPattern _
    | finite sB eB mB subB =>
      dsimp only
      split_ifs
      · exact signField_nanPattern p _
      · exact signField_infPattern _
  | finite sA eA mA subA =>
    cases unpack b with
    | nan sB => exact signField_nanPattern p _
    | infinity sB =>
      dsimp only
      split_ifs
      · exact signField_nanPattern p _
      · exact signField_infPattern _
    | finite sB eB mB subB =>
      dsimp only
      split_ifs
      · exact signField_zeroPattern _
      · exact signField_pack _ _ _

theorem signField_divResponse (p : Params) (a b : Bits64) :
    signField (divResponse p a b).result = (signField a ^^ signField b) := by
  rw [← sign_unpack a, ← sign_unpack b, divResponse]
  cases unpack a with
  | nan sA => exact signField_nanPattern p _
  | infinity sA =>
    cases unpack b with
    | nan sB => exact signField_nanPattern p _
    | infinity sB => exact signField_nanPattern p _
    | finite sB eB mB subB => exact signField_infPattern _
  | finite sA eA mA subA =>
    cases unpack b with
    | nan sB => exact signField_nanPattern p _
    | infinity sB => exact signField_zeroPattern _
    | finite sB eB mB subB =>
      dsimp only
      split_ifs
      · exact signField_nanPattern p _
      · exact signField_infPattern _
      · exact signField_zeroPattern _
      · exact signField_pack _ _ _

/-- Settles O36: each special of MUL and DIV carries the XOR sign, and pack puts it on every other result. -/
theorem mulDivSignIsXor : Obligations.MulDivSignIsXor := fun a b s =>
  ⟨⟨_, exec_eq_enqueue (.mul a b) s, signField_mulResponse Config.params a b⟩,
    ⟨_, exec_eq_enqueue (.div a b) s, signField_divResponse Config.params a b⟩⟩

/-! ### Commutativity -/

theorem multiplyFinite_comm (s : Sign) (A B : Scaled) : multiplyFinite s A B = multiplyFinite s B A := by
  rw [multiplyFinite, multiplyFinite, Int.add_comm, Nat.mul_comm]

/-- Each rule of R81 and R83 reads the operands alike in both orders. -/
theorem mulResponse_comm (p : Params) (a b : Bits64) : mulResponse p a b = mulResponse p b a := by
  rw [mulResponse, mulResponse]
  cases unpack a with
  | nan sA => cases unpack b <;> exact congrArg (untagged <| nanPattern p ·) (Bool.xor_comm _ _)
  | infinity sA => cases unpack b <;> simp only [Unpacked.sign, Bool.xor_comm]
  | finite sA eA mA subA =>
    cases unpack b with
    | nan sB => simp only [Unpacked.sign, Bool.xor_comm]
    | infinity sB => simp only [Bool.xor_comm]
    | finite sB eB mB subB =>
      simp only [Bool.xor_comm sA, Bool.or_comm (Unpacked.isZero (.finite sA eA mA subA)),
        multiplyFinite_comm _ (widen mA eA)]

/-- Settles O39. -/
theorem mulCommutes : Obligations.MulCommutes := fun a b =>
  ⟨mulResponse Config.params a b, fun s =>
    ⟨exec_eq_enqueue (.mul a b) s,
      answers_of_respond_eq (i := .mul b a) (mulResponse_comm Config.params b a) s⟩⟩

/-! ### The product by the classes of its operands -/

section

variable (p : Params) {a b : Bits64}

/-- A special case of MUL in one order of the operands, exchanged. -/
theorem mulResponse_of_swap {pattern : Sign → Bits64}
    (h : mulResponse p b a = untagged (pattern (signField b ^^ signField a))) :
    mulResponse p a b = untagged (pattern (signField a ^^ signField b)) := by
  rw [mulResponse_comm, h, Bool.xor_comm]

theorem mulResponse_of_isNaN (h : IsNaN a) :
    mulResponse p a b = untagged (nanPattern p (signField a ^^ signField b)) := by
  rw [mulResponse, unpack_of_isNaN h]
  simp only [sign_unpack]

theorem mulResponse_of_isInf_isInf (ha : IsInf a) (hb : IsInf b) :
    mulResponse p a b = untagged (infPattern (signField a ^^ signField b)) := by
  rw [mulResponse, unpack_of_isInf ha, unpack_of_isInf hb]

theorem mulResponse_of_isInf_isZero (ha : IsInf a) (hb : IsZero b) :
    mulResponse p a b = untagged (nanPattern p (signField a ^^ signField b)) := by
  rw [mulResponse, unpack_of_isInf ha, unpack_of_isFinite (isFinite_of_isZero hb)]
  exact if_pos ((isZero_unpacked_iff b _ _).2 hb)

theorem mulResponse_of_isInf_isFiniteNonzero (ha : IsInf a) (hb : IsFiniteNonzero b) :
    mulResponse p a b = untagged (infPattern (signField a ^^ signField b)) := by
  rw [mulResponse, unpack_of_isInf ha, unpack_of_isFinite hb.1]
  exact if_neg (mt (isZero_unpacked_iff b _ _).1 hb.2)

theorem mulResponse_of_isFinite (ha : IsFinite a) (hb : IsFinite b) :
    mulResponse p a b = if IsZero a ∨ IsZero b then untagged (zeroPattern (signField a ^^ signField b))
      else multiplyFinite (signField a ^^ signField b) (widened a) (widened b) := by
  rw [mulResponse, unpack_of_isFinite ha, unpack_of_isFinite hb]
  exact if_congr (by rw [Bool.or_eq_true, isZero_unpacked_iff, isZero_unpacked_iff]) rfl rfl

theorem mulResponse_of_isZero_isFinite (ha : IsZero a) (hb : IsFinite b) :
    mulResponse p a b = untagged (zeroPattern (signField a ^^ signField b)) := by
  rw [mulResponse_of_isFinite p (isFinite_of_isZero ha) hb, if_pos (.inl ha)]

theorem mulResponse_of_isFiniteNonzero (ha : IsFiniteNonzero a) (hb : IsFiniteNonzero b) :
    mulResponse p a b = multiplyFinite (signField a ^^ signField b) (widened a) (widened b) := by
  rw [mulResponse_of_isFinite p ha.1 hb.1, if_neg (not_or.2 ⟨ha.2, hb.2⟩)]

end

/-- Settles O34: a special operand on the right is one on the left with the operands exchanged. -/
theorem mulSpecials : Obligations.MulSpecials := by
  intro a b s x
  refine ⟨fun h => ?nan, fun h => ?zeroInf, fun ha hb => ?infs, fun h => ?infFinite, fun h => ?zero⟩ <;>
    refine answers_of_respond_eq (i := .mul a b) ?_ s
  case nan =>
    obtain ha | hb := h
    · exact mulResponse_of_isNaN _ ha
    · exact mulResponse_of_swap _ (mulResponse_of_isNaN _ hb)
  case zeroInf =>
    obtain ⟨ha, hb⟩ | ⟨ha, hb⟩ := h
    · exact mulResponse_of_swap _ (mulResponse_of_isInf_isZero _ hb ha)
    · exact mulResponse_of_isInf_isZero _ ha hb
  case infs => exact mulResponse_of_isInf_isInf _ ha hb
  case infFinite =>
    obtain ⟨ha, hb⟩ | ⟨ha, hb⟩ := h
    · exact mulResponse_of_isInf_isFiniteNonzero _ ha hb
    · exact mulResponse_of_swap _ (mulResponse_of_isInf_isFiniteNonzero _ hb ha)
  case zero =>
    obtain ⟨ha, hb⟩ | ⟨ha, hb⟩ := h
    · exact mulResponse_of_isZero_isFinite _ ha hb
    · exact mulResponse_of_swap _ (mulResponse_of_isZero_isFinite _ hb ha)

end Sys2Proof.Machine
end

section
/-! The product of MUL: what it packs, and its tags (spec/42_multiply.md R83). -/

namespace Sys2Proof.Machine

theorem ne_zero_of_msb_pos {m : Nat} (h : 0 < msb m) : m ≠ 0 := by
  rintro rfl
  exact absurd h (by decide)

/-! ### The tags of pack after a right shift (R58 to R63) -/

theorem roundBy_tag_cases (main : Nat) (g : Grs) :
    (roundBy main g).tag = .roundCarry ∨ (roundBy main g).tag = .roundKeep := by
  obtain ⟨-, h⟩ | ⟨-, h⟩ := roundBy_cases main g <;> simp [h]

/-- Step 6 of pack emits no tag, or one round tag. -/
theorem packExponent_tags (s : Sign) (e : Int) (main : Nat) :
    (packExponent s e main).tags = [] ∨
      ∃ t, (packExponent s e main).tags = [t] ∧ (t = .roundCarry ∨ t = .roundKeep) := by
  obtain ⟨-, h⟩ | ⟨-, -, h⟩ | ⟨-, h⟩ := packExponent_cases s e main <;> rw [h]
  · exact .inl rfl
  · exact .inl rfl
  · rw [packSubnormal]
    split_ifs
    · exact .inl rfl
    · exact .inr ⟨_, rfl, roundBy_tag_cases _ _⟩

/-- A significand above bit 55 is shifted right, and one or two roundings follow. -/
theorem pack_tags_of_right (s : Sign) (e : Int) {m sh : Nat} (hmsb : msb m = 55 + sh) (hsh : 0 < sh) :
    ∃ rest, (pack s e m).tags = .normalizeRight sh :: rest ∧ (rest.length = 1 ∨ rest.length = 2) ∧
      ∀ t ∈ rest, t = .roundCarry ∨ t = .roundKeep := by
  have h8 : 8 ≤ m := (Nat.le_log2 (ne_zero_of_msb_pos (m := m) (by omega))).1 (show 3 ≤ msb m by omega)
  rw [pack_of_main s e m (shiftRight_three_ne_zero h8), normalise_of_right e hmsb hsh, emitBefore_tags]
  refine ⟨_, rfl, ?_⟩
  have hround : (roundMain (srs m sh)).tag = .roundCarry ∨ (roundMain (srs m sh)).tag = .roundKeep :=
    roundBy_tag_cases _ _
  generalize propagateCarry _ _ = c
  obtain h | ⟨t, h, ht⟩ := packExponent_tags s c.exponent c.significand <;> rw [h]
  · exact ⟨.inl rfl, by simpa using hround⟩
  · exact ⟨.inr rfl, by simpa using ⟨hround, ht⟩⟩

/-! ### The product of the widened significands -/

/-- The product has 105 or 106 bits. -/
theorem widened_product_bounds {a b : Bits64} (ha : IsFiniteNonzero a) (hb : IsFiniteNonzero b) :
    2 ^ 104 ≤ (widened a).significand * (widened b).significand ∧
      (widened a).significand * (widened b).significand < 2 ^ 106 := by
  obtain ⟨hleA, hltA⟩ := widened_significand_bounds ha
  obtain ⟨hleB, hltB⟩ := widened_significand_bounds hb
  constructor
  · calc 2 ^ 104 = 2 ^ 52 * 2 ^ 52 := by decide
      _ ≤ _ := Nat.mul_le_mul hleA hleB
  · calc _ < 2 ^ 53 * 2 ^ 53 := Nat.mul_lt_mul'' hltA hltB
      _ = 2 ^ 106 := by decide

theorem msb_of_product_bounds {m : Nat} (hle : 2 ^ 104 ≤ m) (hlt : m < 2 ^ 106) :
    ∃ n, msb m = 55 + n ∧ (n = 49 ∨ n = 50) := by
  have hne : m ≠ 0 := by omega
  have h104 : 104 ≤ msb m := (Nat.le_log2 hne).2 hle
  have h106 : msb m < 106 := (Nat.log2_lt hne).2 hlt
  exact ⟨msb m - 55, by omega, by omega⟩

/-- Settles O37: the highest set bit of the product is bit 104 or 105, so pack shifts right by 49 or 50. -/
theorem mulArithmetic : Obligations.MulArithmetic := by
  intro a b s sA sB eA eB mA mB subA subB ha hb hunpackA hunpackB
  obtain ⟨rfl, hA⟩ := sign_and_widen_of_unpack_finite hunpackA ha.1
  obtain ⟨rfl, hB⟩ := sign_and_widen_of_unpack_finite hunpackB hb.1
  dsimp only
  rw [hA, hB]
  obtain ⟨hle, hlt⟩ := widened_product_bounds ha hb
  obtain ⟨n, hmsb, hn⟩ := msb_of_product_bounds hle hlt
  obtain ⟨rest, htags, hlength, hround⟩ := pack_tags_of_right (signField a ^^ signField b)
    ((widened a).exponent + (widened b).exponent - 49) hmsb (by omega)
  exact ⟨hle, hlt, answers_of_respond_eq (i := .mul a b) (mulResponse_of_isFiniteNonzero _ ha hb) s,
    n, rest, htags, hn, hlength, hround⟩

end Sys2Proof.Machine
end

section
/-! A magnitude that pack rounds once, against the exact one: nearest, or the infinity (spec/40_codec.md R58 to
R62; spec/42_multiply.md R85). -/

namespace Sys2Proof.Machine

/-! ### The result of one rounding, for a magnitude in units of `2^-(1074 + d)` -/

section

variable {d z q : Nat} (s : Sign)

/-- The threshold of overflow, `2^1024 - 2^970`. -/
theorem scaled_lt_threshold_iff (hmsb : 52 + d ≤ msb z) (hround : RoundsTo z (msb z - 52) q)
    (hq : 2 ^ 52 ≤ q) (hq' : q ≤ 2 ^ 53) :
    (msb z - 52 - d) * 2 ^ 52 + q < 2047 * 2 ^ 52 ↔ z < (2 ^ 2098 - 2 ^ 2044) * 2 ^ d := by
  have hscale : ∀ c : Nat, (2 ^ (54 + c) - 2 ^ c) * 2 ^ d = 2 ^ (54 + (c + d)) - 2 ^ (c + d) := by
    intro c
    rw [Nat.sub_mul, ← pow_add, ← pow_add, Nat.add_assoc]
  rw [show 2098 = 54 + 2044 from rfl, hscale, ← scaled_lt_iff (2044 + d) (by omega) hround hq hq']
  omega

/-- Below the threshold the rounded magnitude is nearest to the exact one. -/
theorem isNearest_of_roundsTo (hmsb : 52 + d ≤ msb z) (hround : RoundsTo z (msb z - 52) q)
    (hq : 2 ^ 52 ≤ q) (hq' : q ≤ 2 ^ 53) (hlt : z < (2 ^ 2098 - 2 ^ 2044) * 2 ^ d) :
    IsNearest (withSign s (BitVec.ofNat 63 (roundedMagnitude (msb z - 52 - d) q))) (applySign s z)
      (2 ^ d) := by
  have hmax := (scaled_lt_threshold_iff hmsb hround hq hq').2 hlt
  have hz : z ≠ 0 := ne_zero_of_msb_pos (by omega)
  have hstep : (2 ^ (msb z - 52 - d) * 2 ^ d : Int) = 2 ^ (msb z - 52) := by
    rw [← pow_add, Nat.sub_add_cancel (by omega)]
  have hbinade : 2 ^ 52 * 2 ^ (msb z - 52) ≤ z := by
    rw [← pow_add, Nat.add_sub_cancel' (by omega)]
    exact two_pow_msb_le (Nat.pos_of_ne_zero hz)
  refine isNearest_of_halfStep (by positivity) (units_withSign_of_scaled s hq hq' hmax) ?_ ?_ ?_ ?_
  · rw [hstep]
    exact hround.1
  · rw [hstep]
    exact hround.2
  · rw [hstep]
    exact_mod_cast hbinade
  · intro heven
    rw [roundedMagnitude, min_eq_left hmax.le]
    exact withSign_getLsbD_zero s (by omega) (by omega)

/-- From the threshold on it is the infinity. -/
theorem withSign_roundedMagnitude_of_overflow (hmsb : 52 + d ≤ msb z)
    (hround : RoundsTo z (msb z - 52) q) (hq : 2 ^ 52 ≤ q) (hq' : q ≤ 2 ^ 53)
    (hle : (2 ^ 2098 - 2 ^ 2044) * 2 ^ d ≤ z) :
    withSign s (BitVec.ofNat 63 (roundedMagnitude (msb z - 52 - d) q)) = infPattern s :=
  withSign_roundedMagnitude_of_le
    (not_lt.1 (mt (scaled_lt_threshold_iff hmsb hround hq hq').1 hle.not_gt)) s

/-! ### Pack of a magnitude that is scaled but exact -/

variable {e : Int} {m i t : Nat}

section

variable (hscale : m * 2 ^ i = z * 2 ^ t) (hm : 52 ≤ msb m) (hz : 52 + d ≤ msb z)

include hscale hm hz

theorem msb_of_mul_eq : msb m + i = msb z + t := by
  have hm0 : m ≠ 0 := ne_zero_of_msb_pos (by omega)
  have hz0 : z ≠ 0 := ne_zero_of_msb_pos (by omega)
  rw [← msb_mul_two_pow hm0, ← msb_mul_two_pow hz0, hscale]

/-- Pack's main value of a scaled copy of `z` is `z` rounded to 53 bits. -/
theorem roundsTo_mainValue_of_mul_eq : RoundsTo z (msb z - 52) (mainValue e m) := by
  have hplace := msb_of_mul_eq hscale hm hz
  have hround := roundsTo_mul_two_pow i (roundsTo_mainValue e hm)
  rw [hscale, show msb m - 52 + i = msb z - 52 + t by omega] at hround
  exact roundsTo_of_mul_two_pow hround

/-- A pair `(e, m)` that denotes `z × 2^-(1074 + d)` in the normal range is rounded once (R58 to R62). -/
theorem pack_result_of_mul_eq (he : e = (i : Int) - t - d - 1019) :
    ∃ q, RoundsTo z (msb z - 52) q ∧ 2 ^ 52 ≤ q ∧ q ≤ 2 ^ 53 ∧
      (pack s e m).result = withSign s (BitVec.ofNat 63 (roundedMagnitude (msb z - 52 - d) q)) := by
  have hm0 : m ≠ 0 := ne_zero_of_msb_pos (by omega)
  have h8 : 8 ≤ m := (Nat.le_log2 hm0).1 (show 3 ≤ msb m by omega)
  have hplace := msb_of_mul_eq hscale hm hz
  have hexp : e + msb m - 55 = ((msb z - 52 - d : Nat) : Int) - 1022 := by omega
  obtain ⟨hq, hq'⟩ := mainValue_bounds e hm0
  obtain ⟨main, e', hcarry, -⟩ := propagateCarry_spec (e + msb m - 55) hq hq'
  refine ⟨_, roundsTo_mainValue_of_mul_eq (e := e) hscale hm hz, hq, hq', ?_⟩
  rw [pack_result s e h8 hcarry]
  rw [hexp] at hcarry
  exact packExponent_of_scaled s hq hq' hcarry

end

end

/-! ### The product -/

theorem applySign_mul (s t : Sign) (m n : Nat) :
    applySign s m * applySign t n = applySign (s ^^ t) (m * n) := by
  cases s <;> cases t <;> simp [applySign]

/-- The exact product of the statement's operands, in units of `2^-2148`. -/
theorem mul_eq_applySign {a b : Bits64} {ua ub : Int} (ha : units a = some ua) (hb : units b = some ub) :
    ua * ub = applySign (signField a ^^ signField b) (unitsAbs a * unitsAbs b) := by
  have hA := (units_of_isFinite (isFinite_of_units ha)).symm.trans ha
  have hB := (units_of_isFinite (isFinite_of_units hb)).symm.trans hb
  rw [← Option.some.inj hA, ← Option.some.inj hB, applySign_mul]

/-- A product of at least `2^-1022` in magnitude is rounded once, to 53 bits. -/
theorem mulResponse_result_of_normal (p : Params) {a b : Bits64} (ha : IsFiniteNonzero a)
    (hb : IsFiniteNonzero b) (hz : 52 + 1074 ≤ msb (unitsAbs a * unitsAbs b)) :
    ∃ q, RoundsTo (unitsAbs a * unitsAbs b) (msb (unitsAbs a * unitsAbs b) - 52) q ∧
      2 ^ 52 ≤ q ∧ q ≤ 2 ^ 53 ∧
      (mulResponse p a b).result = withSign (signField a ^^ signField b)
        (BitVec.ofNat 63 (roundedMagnitude (msb (unitsAbs a * unitsAbs b) - 52 - 1074) q)) := by
  obtain ⟨hle, hlt⟩ := widened_product_bounds ha hb
  obtain ⟨n, hmsb, -⟩ := msb_of_product_bounds hle hlt
  have hscale : (widened a).significand * (widened b).significand * 2 ^ (expIndex a + expIndex b) =
      unitsAbs a * unitsAbs b * 2 ^ (widenShift a + widenShift b) := by
    rw [pow_add, pow_add, mul_mul_mul_comm, widened_significand_mul, widened_significand_mul,
      mul_mul_mul_comm]
  rw [mulResponse_of_isFiniteNonzero p ha hb, multiplyFinite]
  refine pack_result_of_mul_eq _ hscale (by omega) hz ?_
  rw [widened_exponent, widened_exponent]
  push_cast
  ring

/-- The lower bound of the normal range, `2^-1022`, at any scale. -/
theorem le_msb_of_normal {d z : Nat} (hz : z ≠ 0) (h : (2 ^ 52 * 2 ^ d : Int) ≤ z) : 52 + d ≤ msb z := by
  rw [msb, Nat.le_log2 hz, pow_add]
  exact_mod_cast h

theorem threshold_cast (d : Nat) :
    (((2 ^ 2098 - 2 ^ 2044) * 2 ^ d : Nat) : Int) = (2 ^ 2098 - 2 ^ 2044) * 2 ^ d := by
  rw [Nat.cast_mul, overflow_cast, Nat.cast_pow, Nat.cast_ofNat]

/-- Settles O41: such a product is rounded once, and overflows exactly from the threshold on. -/
theorem mulIsNearest : Obligations.MulIsNearest := by
  intro a b s ua ub ha hb hua hub hnormal
  rw [mul_eq_applySign hua hub, abs_applySign] at hnormal ⊢
  have hne : unitsAbs a * unitsAbs b ≠ 0 := (Nat.mul_pos (unitsAbs_pos ha) (unitsAbs_pos hb)).ne'
  have hz := le_msb_of_normal hne hnormal
  obtain ⟨q, hround, hq, hq', hr⟩ := mulResponse_result_of_normal Config.params ha hb hz
  refine ⟨mulResponse Config.params a b, exec_eq_enqueue (.mul a b) s, ?_⟩
  rw [← threshold_cast, hr]
  exact ⟨fun h => isNearest_of_roundsTo _ hz hround hq hq' (Int.ofNat_lt.1 h),
    fun h => withSign_roundedMagnitude_of_overflow _ hz hround hq hq' (Int.ofNat_le.1 h)⟩

end Sys2Proof.Machine
end

section
/-! DIV by the classes of its operands (spec/43_divide.md R91). -/

namespace Sys2Proof.Machine

section

variable (p : Params) {a b : Bits64}

theorem divResponse_of_isNaN_left (ha : IsNaN a) :
    divResponse p a b = untagged (nanPattern p (signField a ^^ signField b)) := by
  rw [divResponse, unpack_of_isNaN ha]
  simp only [sign_unpack]

theorem divResponse_of_isNaN_right (hb : IsNaN b) :
    divResponse p a b = untagged (nanPattern p (signField a ^^ signField b)) := by
  rw [← sign_unpack a, divResponse, unpack_of_isNaN hb]
  cases unpack a <;> rfl

theorem divResponse_of_isInf_isInf (ha : IsInf a) (hb : IsInf b) :
    divResponse p a b = untagged (nanPattern p (signField a ^^ signField b)) := by
  rw [divResponse, unpack_of_isInf ha, unpack_of_isInf hb]

theorem divResponse_of_isInf_isFinite (ha : IsInf a) (hb : IsFinite b) :
    divResponse p a b = untagged (infPattern (signField a ^^ signField b)) := by
  rw [divResponse, unpack_of_isInf ha, unpack_of_isFinite hb]

theorem divResponse_of_isFinite_isInf (ha : IsFinite a) (hb : IsInf b) :
    divResponse p a b = untagged (zeroPattern (signField a ^^ signField b)) := by
  rw [divResponse, unpack_of_isFinite ha, unpack_of_isInf hb]

/-- Of finite operands the zeros are caught first, two of them before one. -/
theorem divResponse_of_isFinite (ha : IsFinite a) (hb : IsFinite b) :
    divResponse p a b =
      if IsZero a ∧ IsZero b then untagged (nanPattern p (signField a ^^ signField b))
      else if IsZero b then untagged (infPattern (signField a ^^ signField b))
      else if IsZero a then untagged (zeroPattern (signField a ^^ signField b))
      else divideFinite (signField a ^^ signField b) (widened a) (widened b) := by
  rw [divResponse, unpack_of_isFinite ha, unpack_of_isFinite hb]
  simp only [Bool.and_eq_true, isZero_unpacked_iff]
  rfl

theorem divResponse_of_isZero_isZero (ha : IsZero a) (hb : IsZero b) :
    divResponse p a b = untagged (nanPattern p (signField a ^^ signField b)) := by
  rw [divResponse_of_isFinite p (isFinite_of_isZero ha) (isFinite_of_isZero hb), if_pos ⟨ha, hb⟩]

theorem divResponse_of_isFiniteNonzero_isZero (ha : IsFiniteNonzero a) (hb : IsZero b) :
    divResponse p a b = untagged (infPattern (signField a ^^ signField b)) := by
  rw [divResponse_of_isFinite p ha.1 (isFinite_of_isZero hb), if_neg fun h => ha.2 h.1, if_pos hb]

theorem divResponse_of_isZero_isFiniteNonzero (ha : IsZero a) (hb : IsFiniteNonzero b) :
    divResponse p a b = untagged (zeroPattern (signField a ^^ signField b)) := by
  rw [divResponse_of_isFinite p (isFinite_of_isZero ha) hb.1, if_neg fun h => hb.2 h.2, if_neg hb.2,
    if_pos ha]

theorem divResponse_of_isFiniteNonzero (ha : IsFiniteNonzero a) (hb : IsFiniteNonzero b) :
    divResponse p a b = divideFinite (signField a ^^ signField b) (widened a) (widened b) := by
  rw [divResponse_of_isFinite p ha.1 hb.1, if_neg fun h => hb.2 h.2, if_neg hb.2, if_neg ha.2]

end

/-- Settles O35: each special case is one class of A against one class of B. -/
theorem divSpecials : Obligations.DivSpecials := by
  intro a b s x
  refine ⟨fun h => ?nan, fun ha hb => ?infs, fun ha hb => ?zeros, fun ha hb => ?infA, fun ha hb => ?infB,
    fun ha hb => ?zeroB, fun ha hb => ?zeroA⟩ <;>
    refine answers_of_respond_eq (i := .div a b) ?_ s
  case nan =>
    obtain ha | hb := h
    · exact divResponse_of_isNaN_left _ ha
    · exact divResponse_of_isNaN_right _ hb
  case infs => exact divResponse_of_isInf_isInf _ ha hb
  case zeros => exact divResponse_of_isZero_isZero _ ha hb
  case infA => exact divResponse_of_isInf_isFinite _ ha hb
  case infB => exact divResponse_of_isFinite_isInf _ ha hb
  case zeroB => exact divResponse_of_isFiniteNonzero_isZero _ ha hb
  case zeroA => exact divResponse_of_isZero_isFiniteNonzero _ ha hb

end Sys2Proof.Machine
end

section
/-! The quotient of DIV: what it packs, and its tags (spec/43_divide.md R92, R93). -/

namespace Sys2Proof.Machine

/-! ### The long division (R92) -/

theorem longDivide_eq (A B : Nat) :
    longDivide A B = if A * 2 ^ 59 % B = 0 then A * 2 ^ 59 / B else A * 2 ^ 59 / B ||| 1 := by
  rw [longDivide, Nat.shiftLeft_eq, ite_not]

/-- The sticky bit does not lower the quotient. -/
theorem le_longDivide {x A B : Nat} (h : x ≤ A * 2 ^ 59 / B) : x ≤ longDivide A B := by
  rw [longDivide_eq]
  split_ifs
  · exact h
  · exact h.trans Nat.left_le_or

theorem widened_significand_pos {p : Bits64} (h : IsFiniteNonzero p) : 0 < (widened p).significand :=
  Nat.lt_of_lt_of_le (by decide) (widened_significand_bounds h).1

theorem widened_quotient_bounds {a b : Bits64} (ha : IsFiniteNonzero a) (hb : IsFiniteNonzero b) :
    (widened a).significand * 2 ^ 59 < 2 ^ 112 ∧
    2 ^ 58 < (widened a).significand * 2 ^ 59 / (widened b).significand ∧
      (widened a).significand * 2 ^ 59 / (widened b).significand < 2 ^ 60 := by
  obtain ⟨hleA, hltA⟩ := widened_significand_bounds ha
  obtain ⟨hleB, hltB⟩ := widened_significand_bounds hb
  have hpos := widened_significand_pos hb
  refine ⟨by omega, (Nat.le_div_iff_mul_le hpos).2 ?_, (Nat.div_lt_iff_lt_mul hpos).2 ?_⟩ <;> omega

/-- The quotient with its sticky bit has 59 or 60 bits. -/
theorem msb_longDivide_widened {a b : Bits64} (ha : IsFiniteNonzero a) (hb : IsFiniteNonzero b) :
    ∃ n, msb (longDivide (widened a).significand (widened b).significand) = 55 + n ∧ (n = 3 ∨ n = 4) := by
  have hlt := longDivide_lt (widened_significand_bounds ha).2 (widened_significand_bounds hb).1
  have hle := le_longDivide (widened_quotient_bounds ha hb).2.1.le
  generalize longDivide (widened a).significand (widened b).significand = m at hlt hle ⊢
  have hne : m ≠ 0 := by omega
  have h58 : 58 ≤ msb m := (Nat.le_log2 hne).2 hle
  have h60 : msb m < 60 := (Nat.log2_lt hne).2 hlt
  exact ⟨msb m - 55, by omega, by omega⟩

/-- Settles O38: the highest set bit of the quotient is bit 58 or 59, so pack shifts right by 3 or 4. -/
theorem divArithmetic : Obligations.DivArithmetic := by
  intro a b s sA sB eA eB mA mB subA subB ha hb hunpackA hunpackB
  obtain ⟨rfl, hA⟩ := sign_and_widen_of_unpack_finite hunpackA ha.1
  obtain ⟨rfl, hB⟩ := sign_and_widen_of_unpack_finite hunpackB hb.1
  dsimp only
  rw [hA, hB, ← longDivide_eq]
  obtain ⟨hN, hle, hlt⟩ := widened_quotient_bounds ha hb
  obtain ⟨n, hmsb, hn⟩ := msb_longDivide_widened ha hb
  obtain ⟨rest, htags, hlength, hround⟩ := pack_tags_of_right (signField a ^^ signField b)
    ((widened a).exponent - (widened b).exponent - 4) hmsb (by omega)
  exact ⟨hN, hle, hlt, answers_of_respond_eq (i := .div a b) (divResponse_of_isFiniteNonzero _ ha hb) s,
    n, rest, htags, hn, hlength, hround⟩

/-! ### A pattern divided by itself -/

theorem longDivide_self {m : Nat} (hm : 0 < m) : longDivide m m = 2 ^ 59 := by
  rw [longDivide_eq, if_pos (Nat.mul_mod_right _ _), Nat.mul_div_cancel_left _ hm]

/-- The quotient `2^59` at exponent -4 is `1.0`: bit 59 goes to bit 55 and the exponent to 0. -/
theorem pack_one : pack false (-4) (2 ^ 59) = ⟨0x3FF0000000000000#64, [.normalizeRight 4, .roundKeep]⟩ := by
  decide

theorem divResponse_self_of_isFiniteNonzero (p : Params) {x : Bits64} (hx : IsFiniteNonzero x) :
    divResponse p x x = ⟨0x3FF0000000000000#64, [.normalizeRight 4, .roundKeep]⟩ := by
  rw [divResponse_of_isFiniteNonzero p hx hx, divideFinite, Bool.xor_self, sub_self, zero_sub,
    longDivide_self (widened_significand_pos hx), pack_one]

theorem divResponse_self_of_not (p : Params) {x : Bits64} (hx : ¬ IsFiniteNonzero x) :
    divResponse p x x = untagged (nanPattern p false) := by
  rw [← Bool.xor_self (signField x)]
  obtain hnan | hinf | hfin := class_cases x
  · exact divResponse_of_isNaN_left p hnan
  · exact divResponse_of_isInf_isInf p hinf hinf
  · have hzero : IsZero x := by_contra fun h => hx ⟨hfin, h⟩
    exact divResponse_of_isZero_isZero p hzero hzero

/-- Settles O40: the quotient of equal significands is exact, and no other class divides by itself. -/
theorem divBySelf : Obligations.DivBySelf := fun x s =>
  ⟨fun hx => answers_of_respond_eq (i := .div x x) (divResponse_self_of_isFiniteNonzero _ hx) s,
    fun hx => answers_of_respond_eq (i := .div x x) (divResponse_self_of_not _ hx) s⟩

end Sys2Proof.Machine
end

section
/-! An exact quotient rounded to nearest: by the long division with its sticky bit, and against the patterns
(spec/43_divide.md R92, R95). -/

namespace Sys2Proof.Machine

/-! ### Rounding a quotient to nearest, ties to even -/

/-- `q` is `n / g` rounded to nearest, a tie to the even one. -/
def RoundsToRatio (n g q : Nat) : Prop :=
  2 * |(q * g : Int) - n| ≤ g ∧ (2 * |(q * g : Int) - n| = g → q % 2 = 0)

theorem roundsTo_iff_ratio (x k q : Nat) : RoundsTo x k q ↔ RoundsToRatio x (2 ^ k) q := by
  rw [RoundsTo, RoundsToRatio, Nat.cast_pow, Nat.cast_ofNat]

/-- Rounding to nearest by the two ties around `q`. -/
theorem roundsToRatio_double_iff {n h q : Nat} (hq : 0 < q) :
    RoundsToRatio n (2 * h) q ↔ (2 * q - 1) * h ≤ n ∧ n ≤ (2 * q + 1) * h ∧
      (n = (2 * q - 1) * h ∨ n = (2 * q + 1) * h → q % 2 = 0) := by
  have hle : h ≤ q * h := Nat.le_mul_of_pos_left h hq
  have hmul : (q * (2 * h : Nat) : Int) = 2 * (q * h : Nat) := by
    push_cast
    ring
  rw [RoundsToRatio, hmul, Nat.sub_mul, Nat.add_mul, mul_assoc, one_mul]
  obtain ⟨habs, hsign⟩ | ⟨habs, hsign⟩ := abs_cases (2 * (q * h : Nat) - n : Int) <;> rw [habs]
  · constructor <;> intro <;> omega
  · constructor <;> intro <;> omega

/-- Rounding a quotient does not depend on the fraction it is written as. -/
theorem RoundsToRatio.of_mul_eq {n g n' g' c c' q : Nat} (h : RoundsToRatio n g q) (hc : 0 < c)
    (hc' : 0 < c') (hn : n * c = n' * c') (hg : g * c = g' * c') : RoundsToRatio n' g' q := by
  have hpos : (0 : Int) < c := by exact_mod_cast hc
  have hpos' : (0 : Int) < c' := by exact_mod_cast hc'
  have hnInt : (n * c : Int) = n' * c' := by exact_mod_cast hn
  have hgInt : (g * c : Int) = g' * c' := by exact_mod_cast hg
  have hdist : ((q * g : Int) - n) * c = (q * g' - n') * c' := by
    linear_combination (q : Int) * hgInt - hnInt
  have herr := congrArg (fun y : Int => 2 * |y|) hdist
  rw [abs_mul, abs_mul, abs_of_pos hpos, abs_of_pos hpos', ← mul_assoc, ← mul_assoc] at herr
  refine ⟨le_of_mul_le_mul_right ?_ hpos', fun htie => h.2 (mul_right_cancel₀ hpos.ne' ?_)⟩
  · rw [← herr, ← hgInt]
    exact mul_le_mul_of_nonneg_right h.1 hpos.le
  · rw [herr, htie, hgInt]

/-! ### The long division against even numbers (R92) -/

section

variable {x A B : Nat} (hB : 0 < B) (hx : x % 2 = 0)

include hB hx

theorem longDivide_lt_iff : longDivide A B < x ↔ A * 2 ^ 59 < x * B := by
  rw [← Nat.div_lt_iff_lt_mul hB, longDivide_eq, or_one_eq]
  split_ifs <;> omega

theorem lt_longDivide_iff : x < longDivide A B ↔ x * B < A * 2 ^ 59 := by
  have hle : x ≤ A * 2 ^ 59 / B ↔ x * B ≤ A * 2 ^ 59 := Nat.le_div_iff_mul_le hB
  have hparts := Nat.div_add_mod' (A * 2 ^ 59) B
  rw [longDivide_eq, or_one_eq]
  split_ifs with hrest
  · rw [hrest, Nat.add_zero] at hparts
    rw [← hparts, Nat.mul_div_cancel _ hB]
    exact (Nat.mul_lt_mul_right hB).symm
  · have hne : x * B ≠ A * 2 ^ 59 := fun h => hrest (h ▸ Nat.mul_mod_left _ _)
    omega

end

theorem longDivide_lt_two_pow_iff {A B k : Nat} (hB : 0 < B) (hk : 0 < k) :
    longDivide A B < 2 ^ k ↔ A * 2 ^ 59 < 2 ^ k * B :=
  longDivide_lt_iff hB (Nat.pow_mod 2 k 2 ▸ by simp [hk.ne'])

/-- The quotient with its sticky bit lies in the binade of the exact one. -/
theorem longDivide_binade {A B k : Nat} (hB : 0 < B) (hk : 0 < k) (h : msb (longDivide A B) = k) :
    2 ^ k * B ≤ A * 2 ^ 59 ∧ A * 2 ^ 59 < 2 ^ (k + 1) * B := by
  obtain ⟨hle, hlt⟩ := (msb_eq_iff (ne_zero_of_msb_pos (h ▸ hk))).1 h
  exact ⟨not_lt.1 (mt (longDivide_lt_two_pow_iff hB hk).2 hle.not_gt),
    (longDivide_lt_two_pow_iff hB k.succ_pos).1 hlt⟩

/-- Where two places or more are rounded off, the ties are even numbers, which the quotient with its sticky bit
meets as the exact one does. -/
theorem roundsToRatio_of_longDivide {A B k q : Nat} (hB : 0 < B) (hq : 0 < q)
    (h : RoundsTo (longDivide A B) (k + 2) q) : RoundsToRatio (A * 2 ^ 59) (2 ^ (k + 2) * B) q := by
  have heven : ∀ c, c * 2 ^ (k + 1) % 2 = 0 := fun c => by
    rw [pow_succ, ← mul_assoc]
    exact Nat.mul_mod_left _ 2
  have hlow := longDivide_lt_iff (A := A) hB (heven (2 * q - 1))
  have hlow' := lt_longDivide_iff (A := A) hB (heven (2 * q - 1))
  have hhigh := longDivide_lt_iff (A := A) hB (heven (2 * q + 1))
  have hhigh' := lt_longDivide_iff (A := A) hB (heven (2 * q + 1))
  rw [roundsTo_iff_ratio, pow_succ', roundsToRatio_double_iff hq] at h
  rw [pow_succ' 2 (k + 1), mul_assoc 2, roundsToRatio_double_iff hq, ← mul_assoc, ← mul_assoc]
  omega

/-! ### A rounded quotient as a pattern -/

section

variable {x d j q : Nat}

/-- A quotient rounds to less than `2^(54 + c)` exactly when it is more than half a step below. -/
theorem ratio_scaled_lt_iff (c : Nat) (hd : 0 < d) (hround : RoundsToRatio x (2 ^ j * d) q)
    (hle : 2 ^ 52 * (2 ^ j * d) ≤ x) (hq : 2 ^ 52 ≤ q) (hq' : q ≤ 2 ^ 53) :
    j * 2 ^ 52 + q < (c + 3) * 2 ^ 52 ↔ x < (2 ^ (54 + c) - 2 ^ c) * d := by
  have ht : 0 < 2 ^ c * d := Nat.mul_pos (Nat.two_pow_pos c) hd
  rw [Nat.sub_mul, pow_add, mul_assoc]
  obtain hsmall | rfl | hbig : j ≤ c ∨ j = c + 1 ∨ c + 2 ≤ j := by omega
  · have hstep : 2 ^ j * d ≤ 2 ^ c * d := Nat.mul_le_mul_right d (Nat.pow_le_pow_right (by decide) hsmall)
    have hmax : q * (2 ^ j * d) ≤ 2 ^ 53 * (2 ^ j * d) := Nat.mul_le_mul_right _ hq'
    have hhalf := hround.1
    rw [← Nat.cast_mul] at hhalf
    have herr := abs_le.1 (show |((q * (2 ^ j * d) : Nat) : Int) - x| ≤ (2 ^ j * d : Nat) by omega)
    omega
  · rw [pow_succ', mul_assoc] at hround
    have hcarry := carry_iff_of_roundsTo ht hq' (by exact_mod_cast hround.1)
      (fun h => hround.2 (by exact_mod_cast h))
    rw [← hcarry]
    omega
  · have hstep : 2 ^ (c + 2) * d ≤ 2 ^ j * d :=
      Nat.mul_le_mul_right d (Nat.pow_le_pow_right (by decide) hbig)
    rw [pow_add, Nat.mul_right_comm] at hstep
    omega

theorem ratio_scaled_lt_threshold_iff (hd : 0 < d) (hround : RoundsToRatio x (2 ^ j * d) q)
    (hle : 2 ^ 52 * (2 ^ j * d) ≤ x) (hq : 2 ^ 52 ≤ q) (hq' : q ≤ 2 ^ 53) :
    j * 2 ^ 52 + q < 2047 * 2 ^ 52 ↔ x < (2 ^ 2098 - 2 ^ 2044) * d := by
  rw [show 2098 = 54 + 2044 from rfl]
  exact ratio_scaled_lt_iff 2044 hd hround hle hq hq'

/-- Below the threshold of overflow, `2^1024 - 2^970`, the rounded quotient is nearest to the exact one. -/
theorem isNearest_of_roundsToRatio (s : Sign) (hd : 0 < d) (hround : RoundsToRatio x (2 ^ j * d) q)
    (hle : 2 ^ 52 * (2 ^ j * d) ≤ x) (hq : 2 ^ 52 ≤ q) (hq' : q ≤ 2 ^ 53)
    (hlt : x < (2 ^ 2098 - 2 ^ 2044) * d) :
    IsNearest (withSign s (BitVec.ofNat 63 (roundedMagnitude j q))) (applySign s x) d := by
  have hmax := (ratio_scaled_lt_threshold_iff hd hround hle hq hq').2 hlt
  rw [RoundsToRatio, Nat.cast_mul, Nat.cast_pow, Nat.cast_ofNat] at hround
  obtain ⟨hhalf, htie⟩ := hround
  refine isNearest_of_halfStep (by exact_mod_cast hd) (units_withSign_of_scaled s hq hq' hmax) hhalf htie
    (by exact_mod_cast hle) fun heven => ?_
  rw [roundedMagnitude, min_eq_left hmax.le]
  exact withSign_getLsbD_zero s (by omega) (by omega)

/-- From the threshold on it is the infinity. -/
theorem withSign_roundedMagnitude_of_ratio_overflow (s : Sign) (hd : 0 < d)
    (hround : RoundsToRatio x (2 ^ j * d) q) (hle : 2 ^ 52 * (2 ^ j * d) ≤ x) (hq : 2 ^ 52 ≤ q)
    (hq' : q ≤ 2 ^ 53) (hover : (2 ^ 2098 - 2 ^ 2044) * d ≤ x) :
    withSign s (BitVec.ofNat 63 (roundedMagnitude j q)) = infPattern s :=
  withSign_roundedMagnitude_of_le
    (not_lt.1 (mt (ratio_scaled_lt_threshold_iff hd hround hle hq hq').1 hover.not_gt)) s

end

end Sys2Proof.Machine
end

section
/-! The result of DIV against the exact quotient, in the normal range (spec/43_divide.md R95). -/

namespace Sys2Proof.Machine

/-! ### The quotient of the widened significands as that of the operands -/

/-- Widening and exponents only scale the quotient by powers of two. -/
theorem widened_quotient_scale (a b : Bits64) (c : Nat) :
    (widened a).significand * 2 ^ 59 * (unitsAbs b * 2 ^ (expIndex a + widenShift b + c)) =
      unitsAbs a * 2 ^ (59 + c) * ((widened b).significand * 2 ^ (expIndex b + widenShift a)) := by
  calc _ = ((widened a).significand * 2 ^ expIndex a) * (unitsAbs b * 2 ^ widenShift b) * 2 ^ (59 + c) := by
        ring
    _ = (unitsAbs a * 2 ^ widenShift a) * ((widened b).significand * 2 ^ expIndex b) * 2 ^ (59 + c) := by
        rw [widened_significand_mul, ← widened_significand_mul b]
    _ = _ := by ring

section

variable {N X V w α β i l : Nat} (hscale : N * (V * 2 ^ α) = X * (w * 2 ^ β))

include hscale

/-- A lower bound of the one quotient is one of the other. -/
theorem le_of_quotient_scale (hw : 0 < w) (h : 2 ^ i * w ≤ N) (hplace : i + α = l + β) : 2 ^ l * V ≤ X := by
  refine Nat.le_of_mul_le_mul_right ?_ (Nat.mul_pos hw (Nat.two_pow_pos β))
  calc 2 ^ l * V * (w * 2 ^ β) = 2 ^ (l + β) * (w * V) := by ring
    _ = 2 ^ i * w * (V * 2 ^ α) := by rw [← hplace]; ring
    _ ≤ N * (V * 2 ^ α) := Nat.mul_le_mul_right _ h
    _ = X * (w * 2 ^ β) := hscale

/-- An upper bound of the one quotient is above a lower bound of the other. -/
theorem place_lt_of_quotient_scale (hV : 0 < V) (h : N < 2 ^ i * w) (hle : 2 ^ l * V ≤ X) :
    l + β < i + α := by
  refine (Nat.pow_lt_pow_iff_right (by decide : 1 < 2)).1
    (Nat.lt_of_mul_lt_mul_right (a := w * V) ?_)
  calc 2 ^ (l + β) * (w * V) = 2 ^ l * V * (w * 2 ^ β) := by ring
    _ ≤ X * (w * 2 ^ β) := Nat.mul_le_mul_right _ hle
    _ = N * (V * 2 ^ α) := hscale.symm
    _ < 2 ^ i * w * (V * 2 ^ α) := Nat.mul_lt_mul_of_pos_right h (Nat.mul_pos hV (Nat.two_pow_pos α))
    _ = 2 ^ (i + α) * (w * V) := by ring

/-- What rounds the one quotient rounds the other. -/
theorem roundsToRatio_of_quotient_scale (hw : 0 < w) (hV : 0 < V) {q : Nat} (h : RoundsToRatio N (2 ^ i * w) q)
    (hplace : i + α = l + β) : RoundsToRatio X (2 ^ l * V) q := by
  refine h.of_mul_eq (Nat.mul_pos hV (Nat.two_pow_pos α)) (Nat.mul_pos hw (Nat.two_pow_pos β)) hscale ?_
  calc 2 ^ i * w * (V * 2 ^ α) = 2 ^ (i + α) * (w * V) := by ring
    _ = 2 ^ l * V * (w * 2 ^ β) := by rw [hplace]; ring

end

/-! ### The result -/

/-- In the normal range pack rounds the exact quotient once, to 53 bits (R58 to R62, R92). -/
theorem pack_longDivide_result (s : Sign) {A B j k : Nat} {e : Int} (hB : 0 < B)
    (hmsb : msb (longDivide A B) = 52 + (k + 2)) (he : e + k + 1021 = j) :
    ∃ q, RoundsToRatio (A * 2 ^ 59) (2 ^ (k + 2) * B) q ∧ 2 ^ 52 ≤ q ∧ q ≤ 2 ^ 53 ∧
      (pack s e (longDivide A B)).result = withSign s (BitVec.ofNat 63 (roundedMagnitude j q)) := by
  have hm : longDivide A B ≠ 0 := ne_zero_of_msb_pos (by omega)
  have h8 : 8 ≤ longDivide A B := (Nat.le_log2 hm).1 (show 3 ≤ msb (longDivide A B) by omega)
  have hexp : e + msb (longDivide A B) - 55 = (j : Int) - 1022 := by omega
  have hround := roundsTo_mainValue e (m := longDivide A B) (by omega)
  rw [hmsb, Nat.add_sub_cancel_left] at hround
  obtain ⟨hq, hq'⟩ := mainValue_bounds e hm
  obtain ⟨main, e', hcarry, -⟩ := propagateCarry_spec ((j : Int) - 1022) hq hq'
  refine ⟨_, roundsToRatio_of_longDivide hB (by omega) hround, hq, hq', ?_⟩
  rw [pack_result s e h8 (hexp ▸ hcarry)]
  exact packExponent_of_scaled s hq hq' hcarry

/-- A quotient of at least `2^-1022` in magnitude is rounded once, to 53 bits. -/
theorem divResponse_result_of_normal (p : Params) {a b : Bits64} (ha : IsFiniteNonzero a)
    (hb : IsFiniteNonzero b) (hnormal : 2 ^ 52 * unitsAbs b ≤ unitsAbs a * 2 ^ 1074) :
    ∃ j q, RoundsToRatio (unitsAbs a * 2 ^ 1074) (2 ^ j * unitsAbs b) q ∧
      2 ^ 52 * (2 ^ j * unitsAbs b) ≤ unitsAbs a * 2 ^ 1074 ∧ 2 ^ 52 ≤ q ∧ q ≤ 2 ^ 53 ∧
      (divResponse p a b).result =
        withSign (signField a ^^ signField b) (BitVec.ofNat 63 (roundedMagnitude j q)) := by
  have hV := unitsAbs_pos hb
  have hw := widened_significand_pos hb
  have hscale := widened_quotient_scale a b 1015
  rw [show 59 + 1015 = 1074 from rfl] at hscale
  obtain ⟨n, hmsb, hn⟩ := msb_longDivide_widened ha hb
  rw [show 55 + n = 52 + (n + 1 + 2) by omega] at hmsb
  obtain ⟨hlow, hhigh⟩ := longDivide_binade hw (by omega) hmsb
  have hplace := place_lt_of_quotient_scale hscale hV hhigh hnormal
  obtain ⟨j, hj⟩ := Nat.exists_eq_add_of_le' (show expIndex b + widenShift a ≤
    n + 1 + 2 + (expIndex a + widenShift b + 1015) by omega)
  obtain ⟨q, hround, hq, hq', hr⟩ := pack_longDivide_result (signField a ^^ signField b) (j := j)
    (k := n + 1) (e := (widened a).exponent - (widened b).exponent - 4) hw hmsb
    (by rw [widened_exponent, widened_exponent]; omega)
  rw [divResponse_of_isFiniteNonzero p ha hb, divideFinite]
  refine ⟨j, q, roundsToRatio_of_quotient_scale hscale hw hV hround hj, ?_, hq, hq', hr⟩
  rw [← mul_assoc, ← pow_add]
  exact le_of_quotient_scale hscale hw hlow (by rw [Nat.add_assoc, hj, Nat.add_assoc])

/-! ### The statement's quotient -/

/-- The exact quotient of the statement's operands: its numerator carries both signs. -/
theorem applySign_mul_sign (s t : Sign) (m c : Nat) {n : Nat} (hn : 0 < n) :
    applySign s m * (applySign t n).sign * (c : Int) = applySign (s ^^ t) (m * c) := by
  have hsign : (applySign t n).sign = applySign t 1 := by
    cases t <;> simp [applySign, Int.sign_eq_one_of_pos, hn]
  have hc : (c : Int) = applySign false c := rfl
  rw [hsign, hc, applySign_mul, applySign_mul, mul_one, Bool.xor_false]

/-- Settles O42: such a quotient is rounded once, and overflows exactly from the threshold on. -/
theorem divIsNearest : Obligations.DivIsNearest := by
  intro a b s ua ub ha hb hua hub hnormal
  obtain rfl := Option.some.inj ((units_of_isFinite ha.1).symm.trans hua)
  obtain rfl := Option.some.inj ((units_of_isFinite hb.1).symm.trans hub)
  rw [abs_applySign, abs_applySign] at hnormal ⊢
  obtain ⟨j, q, hround, hle, hq, hq', hr⟩ := divResponse_result_of_normal Config.params ha hb
    (by exact_mod_cast hnormal)
  refine ⟨divResponse Config.params a b, exec_eq_enqueue (.div a b) s, ?_⟩
  have hnum := applySign_mul_sign (signField a) (signField b) (unitsAbs a) (2 ^ 1074) (unitsAbs_pos hb)
  rw [Nat.cast_pow, Nat.cast_ofNat] at hnum
  rw [hnum, hr, ← overflow_cast]
  exact ⟨fun h => isNearest_of_roundsToRatio _ (unitsAbs_pos hb) hround hle hq hq' (by exact_mod_cast h),
    fun h => withSign_roundedMagnitude_of_ratio_overflow _ (unitsAbs_pos hb) hround hle hq hq'
      (by exact_mod_cast h)⟩

end Sys2Proof.Machine
end

section
/-! An edge with `rst = 1` (spec/70_reset_and_hazards.md R112). -/

namespace Sys2Proof.Machine

/-- A step with `rst = 1` is the reset edge, whatever else the host drives or has to hold. -/
theorem step_of_rst {s : State} (hr : (portsIn s).rst = true) : step s = .next (resetEdge s) := by
  rw [step, clockEdge, if_pos hr]

theorem reqReady_of_inflight_nil (p : Params) {s : State} (hq : s.inflight = []) : reqReady p s = true := by
  rw [reqReady_iff, hq]
  exact depth_pos p

theorem rspValid_of_inflight_nil {s : State} (hq : s.inflight = []) : rspValid s = false := by
  rw [Bool.eq_false_iff, Ne, rspValid_iff, hq]
  rintro ⟨_, _, hcons, -⟩
  exact List.cons_ne_nil _ _ hcons.symm

/-- Settles O44: the step is the reset edge, and the empty queue it leaves has room and presents nothing. -/
theorem resetEdgeDropsAll : Obligations.ResetEdgeDropsAll := fun s hr =>
  have hq : (resetEdge s).inflight = [] := resetEdge_inflight s
  ⟨resetEdge s, step_of_rst hr, hq, resetEdge_answered s, resetEdge_dropped s,
    reqReady_of_inflight_nil _ hq, rspValid_of_inflight_nil hq⟩

end Sys2Proof.Machine
end
